-- ==== Sys2Proof/Word.lean ====
section
/-! DEFINITION. The words of the RDC core's ports and registers (00_scope.md R17). -/

namespace Sys2Proof

/-- A command word, a buffer element, response data, an overflow counter: 32 bits (R17). -/
abbrev Word := BitVec 32

/-- A duty, a raw counter value, a raw ADC code: 16 bits (R17). -/
abbrev Half := BitVec 16

/-- The logical level of a pin: 1 is active or set, 0 is inactive or cleared (R17, 92_eei_decisions.md D28). -/
abbrev Level := BitVec 1

/-- A word offered to the core: a command on the command port (R100) or an event on the event port
(R105). The port tells the two apart; no bit of the word does. -/
inductive PortWord where
  | cmd32 (c : Word)
  | evt8 (e : BitVec 8)
  deriving DecidableEq, Repr

end Sys2Proof
end

