-- ==== Sys2Proof/Config.lean ====
section
/-! DEFINITION. What an implementation of the core fixes at build time (00_scope.md R7 to R16), and the
free values: what the environment answers where nothing in the state says so (R24). -/

namespace Sys2Proof

/-- A (port, pin) pair of the Digital I/O capability (R15). -/
structure PinId where
  port : Nat
  pin : Nat
  deriving DecidableEq, Repr

/-- A (timer, channel) pair of the PWM Timer capability (R15). -/
structure ChannelId where
  timer : Nat
  channel : Nat
  deriving DecidableEq, Repr

/-- The wiring tables (R15): entry `k` of a table is that of motor or encoder `k + 1`. -/
structure Wiring where
  sleepPin : Vector PinId 4
  offPin : Vector PinId 4
  dirPin : Vector PinId 4
  statusPin : Vector PinId 4
  pwmCh : Vector ChannelId 4
  encTim : Vector Nat 4
  deriving DecidableEq, Repr

/-- A wiring-table entry that stands for its pin (R20): the four roles, each with its motor index. -/
inductive Pin where
  | sleep (i : Nat)
  | off (i : Nat)
  | dir (i : Nat)
  | status (i : Nat)
  deriving DecidableEq, Repr

/-- The three delays of the sequencer (R16): `T_WAKE`, `T_PULSE`, `T_SETTLE`. -/
inductive Wait where
  | wake
  | pulse
  | settle
  deriving DecidableEq, Repr

/-- The parameters of the build (R7 to R16), "fixed at build, not runtime". -/
structure Config where
  /-- `N`, the configured motor count (R7): any 8-bit value, valid iff in `1..4`. -/
  motorCount : Nat
  /-- `M`, the configured encoder count (R8). -/
  encCount : Nat
  /-- `DUTY_LIMIT` (R9). -/
  dutyLimit : Half
  /-- `MODULUS`, the number of values a raw counter takes (R10). -/
  modulus : Nat
  /-- `CUR_EN` (R11). -/
  curEn : Bool
  /-- `CUR_FULL` (R11). -/
  curFull : Bool
  /-- `ADC_NCONV`, the ADC's configured conversion count (R13). -/
  adcNconv : Nat
  /-- `CUR_GAIN`, output units per ADC code (R14). -/
  curGain : Half
  /-- `ADC_BITS`, the width of a raw ADC code (R14). -/
  adcBits : Nat
  /-- The wiring tables (R15). -/
  wiring : Wiring
  /-- `T_WAKE`, in microseconds (R16). -/
  tWake : Nat
  /-- `T_PULSE`, in microseconds (R16). -/
  tPulse : Nat
  /-- `T_SETTLE`, in microseconds (R16). -/
  tSettle : Nat
  /-- `T_ADC_TO`, in microseconds (R16). -/
  tAdcTo : Nat
  deriving DecidableEq, Repr

/-- No two entries of the wiring tables name the same pin, channel or counter (R15, D29). -/
def Wiring.injective (w : Wiring) : Bool :=
  decide ((w.sleepPin.toList ++ w.offPin.toList ++ w.dirPin.toList ++ w.statusPin.toList).Nodup) &&
    decide w.pwmCh.toList.Nodup && decide w.encTim.toList.Nodup

/-- The parameters lie in the ranges of R7 to R16. An invalid `N` or `M` is in range: the core's own
checks are about it (R7, R8). -/
def Config.wf (c : Config) : Bool :=
  decide (c.motorCount < 256) && decide (c.encCount < 256) && decide (c.adcNconv < 256) &&
    decide (2 ≤ c.modulus) && decide (c.modulus ≤ 65536) &&
    decide (1 ≤ c.adcBits) && decide (c.adcBits ≤ 16) && decide (c.tPulse < 100) &&
    c.wiring.injective

/-- The pin a wiring-table entry names, if the motor index is one of the tables' `1..4` (R15). -/
def Config.pinId (c : Config) : Pin → Option PinId
  | .sleep (k + 1) => c.wiring.sleepPin[k]?
  | .off (k + 1) => c.wiring.offPin[k]?
  | .dir (k + 1) => c.wiring.dirPin[k]?
  | .status (k + 1) => c.wiring.statusPin[k]?
  | .sleep 0 | .off 0 | .dir 0 | .status 0 => none

/-- How long a delay lasts at least, in microseconds (R16, R252). -/
def Config.waitTime (c : Config) : Wait → Nat
  | .wake => c.tWake
  | .pulse => c.tPulse
  | .settle => c.tSettle

/-- DESIGN CHOICE (log 2), unsafe for a claim about this build alone: a wiring with no two entries alike. The contents are OPEN (R15). -/
def Wiring.build : Wiring where
  sleepPin := #v[⟨0, 0⟩, ⟨0, 1⟩, ⟨0, 2⟩, ⟨0, 3⟩]
  offPin := #v[⟨1, 0⟩, ⟨1, 1⟩, ⟨1, 2⟩, ⟨1, 3⟩]
  dirPin := #v[⟨2, 0⟩, ⟨2, 1⟩, ⟨2, 2⟩, ⟨2, 3⟩]
  statusPin := #v[⟨3, 0⟩, ⟨3, 1⟩, ⟨3, 2⟩, ⟨3, 3⟩]
  pwmCh := #v[⟨1, 1⟩, ⟨1, 2⟩, ⟨1, 3⟩, ⟨1, 4⟩]
  encTim := #v[2, 3, 4, 5]

/-- DESIGN CHOICE (log 2), unsafe for a claim about this build alone: the build `State.reset` starts from,
CFG-A of 95_test_vectors.md with the nominal waits of R252. -/
def Config.build : Config where
  motorCount := 2
  encCount := 1
  dutyLimit := 1000
  modulus := 65536
  curEn := true
  curFull := true
  adcNconv := 4
  curGain := 8
  adcBits := 12
  wiring := Wiring.build
  tWake := 1000
  tPulse := 50
  tSettle := 1000
  tAdcTo := 2000

/-- Free value (R24, R37, R73): the level of a status pin at the `n`-th read that no given answer decides. -/
opaque Config.freeLevel : Nat → Level

/-- Free value (R24, R82): the outcome of the `n`-th poll that no given answer decides. -/
opaque Config.freePoll : Nat → Bool

/-- Free value (R24, R83): the code of the `n`-th conversion read that no given answer decides; the core
sees its low `ADC_BITS` bits. -/
opaque Config.freeRaw : Nat → Half

end Sys2Proof
end

