-- ==== Sys2Proof/Syntax.lean ====
section
/-! DEFINITION. The eleven commands and two events of 30_encoding.md R109, one constructor per row of
the opcode table. An index is the integer the field holds (R102, R114); a duty is its 16-bit word (R103). -/

namespace Sys2Proof

inductive Instr where
  /-- `MINIT` (40_motor.md R131). -/
  | minit
  /-- `MSTART i, d` (R133). -/
  | mstart (i : Nat) (d : Half)
  /-- `MSETDUTY i, d` (R134). -/
  | msetduty (i : Nat) (d : Half)
  /-- `MSTOP i, d` (R135). -/
  | mstop (i : Nat) (d : Half)
  /-- `MOFF i` (R136). -/
  | moff (i : Nat)
  /-- `MON i` (R137). -/
  | mon (i : Nat)
  /-- `MGETSTATE i` (R138). -/
  | mgetstate (i : Nat)
  /-- `EINIT` (41_encoder.md R161). -/
  | einit
  /-- `EGETCNT j` (R162). -/
  | egetcnt (j : Nat)
  /-- `EGETPOS j` (R163). -/
  | egetpos (j : Nat)
  /-- `CGETCUR` (42_current.md R181). -/
  | cgetcur
  /-- `EVT.OVF j` (R165). -/
  | evtOvf (j : Nat)
  /-- `EVT.UDF j` (R166). -/
  | evtUdf (j : Nat)
  deriving DecidableEq, Repr

/-- Is it taken from the event port (R105)? Everything else is a command. -/
def Instr.isEvent : Instr → Bool
  | .evtOvf _ | .evtUdf _ => true
  | .minit | .mstart _ _ | .msetduty _ _ | .mstop _ _ | .moff _ | .mon _ | .mgetstate _
  | .einit | .egetcnt _ | .egetpos _ | .cgetcur => false

/-- Does the command read `IDX` (R109 "uses")? -/
def Instr.usesIdx : Instr → Bool
  | .mstart _ _ | .msetduty _ _ | .mstop _ _ | .moff _ | .mon _ | .mgetstate _
  | .egetcnt _ | .egetpos _ => true
  | .minit | .einit | .cgetcur | .evtOvf _ | .evtUdf _ => false

/-- Does the command read `DUTY` (R109 "uses", R104)? -/
def Instr.usesDuty : Instr → Bool
  | .mstart _ _ | .msetduty _ _ | .mstop _ _ => true
  | .minit | .moff _ | .mon _ | .mgetstate _ | .einit | .egetcnt _ | .egetpos _ | .cgetcur
  | .evtOvf _ | .evtUdf _ => false

/-- Is it one of the seven MotorDriver commands (R109)? -/
def Instr.isMotor : Instr → Bool
  | .minit | .mstart _ _ | .msetduty _ _ | .mstop _ _ | .moff _ | .mon _ | .mgetstate _ => true
  | .einit | .egetcnt _ | .egetpos _ | .cgetcur | .evtOvf _ | .evtUdf _ => false

end Sys2Proof
end

