-- ==== Sys2Proof/WellFormed.lean ====
section
/-! DEFINITION. When an instruction is one the ports can carry: its index fits its field
(30_encoding.md R102: 8 bits in a command; R105: 4 bits in an event). Whether an index names a configured
slot is the command's own test (R102), not a matter of form. -/

namespace Sys2Proof

def Instr.wf : Instr → Bool
  | .minit | .einit | .cgetcur => true
  | .mstart i _ | .msetduty i _ | .mstop i _ => decide (i < 256)
  | .moff i | .mon i | .mgetstate i => decide (i < 256)
  | .egetcnt j | .egetpos j => decide (j < 256)
  | .evtOvf j | .evtUdf j => decide (j < 16)

end Sys2Proof
end

