-- ==== Sys2Proof/Decode.lean ====
section
/-! DEFINITION. The decoder, total on every 32-bit command word and every 8-bit event word
(30_encoding.md R118), and after it the encoder, written from the same table (R109). -/

namespace Sys2Proof

/-- Why a word is no instruction of the table. -/
inductive DecodeError where
  /-- A command word whose `OPC` is reserved (R110). -/
  | reservedOpcode (opc : BitVec 8)
  /-- An event word whose `KIND` is reserved (R111). -/
  | reservedKind (kind : BitVec 4)
  deriving DecidableEq, Repr

/-- `OPC = C[31:24]` (R100). -/
def opcOf (c : Word) : BitVec 8 := c.extractLsb' 24 8

/-- `idx`, the integer `C[23:16]` (R100, R114). -/
def idxOf (c : Word) : Nat := (c.extractLsb' 16 8).toNat

/-- `d = C[15:0]` (R100, R114). -/
def dutyOf (c : Word) : Half := c.extractLsb' 0 16

/-- `KIND = E[7:4]` (R105). -/
def kindOf (e : BitVec 8) : BitVec 4 := e.extractLsb' 4 4

/-- `eidx`, the integer `E[3:0]` (R105, R114). -/
def eidxOf (e : BitVec 8) : Nat := (e.extractLsb' 0 4).toNat

/-- A command word: exact match of `OPC` against R109; the fields a command does not use are ignored (R101, R104). -/
def decodeCommand (c : Word) : Except DecodeError Instr :=
  match (opcOf c).toNat with
  | 0x01 => .ok .minit
  | 0x02 => .ok (.mstart (idxOf c) (dutyOf c))
  | 0x03 => .ok (.msetduty (idxOf c) (dutyOf c))
  | 0x04 => .ok (.mstop (idxOf c) (dutyOf c))
  | 0x05 => .ok (.moff (idxOf c))
  | 0x06 => .ok (.mon (idxOf c))
  | 0x07 => .ok (.mgetstate (idxOf c))
  | 0x10 => .ok .einit
  | 0x11 => .ok (.egetcnt (idxOf c))
  | 0x12 => .ok (.egetpos (idxOf c))
  | 0x20 => .ok .cgetcur
  | _ => .error (.reservedOpcode (opcOf c))

/-- An event word: `KIND` 1 is overflow, 2 is underflow, the rest are reserved (R105, R111). -/
def decodeEvent (e : BitVec 8) : Except DecodeError Instr :=
  match (kindOf e).toNat with
  | 1 => .ok (.evtOvf (eidxOf e))
  | 2 => .ok (.evtUdf (eidxOf e))
  | _ => .error (.reservedKind (kindOf e))

/-- The decoder (R118). -/
def decode : PortWord → Except DecodeError Instr
  | .cmd32 c => decodeCommand c
  | .evt8 e => decodeEvent e

/-- `OPC ++ IDX ++ DUTY` (R100). -/
def commandWord (opc : BitVec 8) (idx : Nat) (d : Half) : Word :=
  opc ++ BitVec.ofNat 8 idx ++ d

/-- `KIND ++ EIDX` (R105). -/
def eventWord (kind : BitVec 4) (eidx : Nat) : BitVec 8 :=
  kind ++ BitVec.ofNat 4 eidx

/-- The word of an instruction, unused fields 0 (R109, R118). -/
def encode : Instr → PortWord
  | .minit => .cmd32 (commandWord 0x01 0 0)
  | .mstart i d => .cmd32 (commandWord 0x02 i d)
  | .msetduty i d => .cmd32 (commandWord 0x03 i d)
  | .mstop i d => .cmd32 (commandWord 0x04 i d)
  | .moff i => .cmd32 (commandWord 0x05 i 0)
  | .mon i => .cmd32 (commandWord 0x06 i 0)
  | .mgetstate i => .cmd32 (commandWord 0x07 i 0)
  | .einit => .cmd32 (commandWord 0x10 0 0)
  | .egetcnt j => .cmd32 (commandWord 0x11 j 0)
  | .egetpos j => .cmd32 (commandWord 0x12 j 0)
  | .cgetcur => .cmd32 (commandWord 0x20 0 0)
  | .evtOvf j => .evt8 (eventWord 1 j)
  | .evtUdf j => .evt8 (eventWord 2 j)

/-- The port word of a table row's `nbits` bits `w`: a command word is one 32-bit transaction, an event
word one 8-bit transaction (R48); no other width is offered to the core. -/
def tableWord (nbits w : Nat) : Option PortWord :=
  if nbits = 32 then some (.cmd32 (BitVec.ofNat 32 w))
  else if nbits = 8 then some (.evt8 (BitVec.ofNat 8 w))
  else none

/-- The instruction the decoder reads from a table row's bits. -/
def decodeTableWord (nbits w : Nat) : Option Instr :=
  match tableWord nbits w with
  | some p => (decode p).toOption
  | none => none

end Sys2Proof
end

