-- ==== Sys2Proof/Machine/State.lean ====
section
/-! DEFINITION. The state of the core and of its reference environment (10_state.md), as plain data, and
the state after reset (R55, R231). -/

namespace Sys2Proof.Machine

/-- `MSTATE`: the lifecycle state of a motor slot (R31). The pattern 7 has no name, so it is never held (log 18). -/
inductive Lifecycle where
  | uninitialized
  | sleeping
  | waking
  | standby
  | running
  | stopped
  | off
  deriving DecidableEq, Repr

/-- `WRAPDIR`, and the direction of a count step: 0 is up, 1 is down (R41, R203). -/
inductive WrapDir where
  | up
  | down
  deriving DecidableEq, Repr

/-- A motor slot (R31 to R36). -/
structure MotorSlot where
  /-- `MSTATE[i]` (R31). -/
  state : Lifecycle
  /-- `MDUTY[i]`, the PWM duty register (R32). -/
  duty : Half
  /-- `SLEEP[i]`, 1 awake (R33). -/
  sleep : Level
  /-- `OFFP[i]`, 1 high impedance (R34). -/
  offp : Level
  /-- `DIR[i]`, 1 forward drive (R35). -/
  dir : Level
  /-- `PWM_RUN[i]` (R36). -/
  pwmRun : Bool
  deriving DecidableEq, Repr

/-- An encoder slot (R38 to R43). -/
structure EncSlot where
  /-- `OVF[j]`, two's complement (R38). -/
  ovf : Word
  /-- `CNT[j]` (R39). -/
  cnt : Half
  /-- `UIF[j]` (R40). -/
  uif : Bool
  /-- `WRAPDIR[j]`, meaningful while `uif` (R41). -/
  wrapDir : WrapDir
  /-- `UIE[j]` (R42). -/
  uie : Bool
  /-- `ENC_RUN[j]` (R43). -/
  encRun : Bool
  deriving DecidableEq, Repr

/-- `SEQ` (R45): `busy c s` is `BUSY(c, s)`, the accepted word and the number, from 1, of the next
micro-step of its command, loops unrolled (log 8). -/
inductive Seq where
  | idle
  | busy (c : Word) (s : Nat)
  deriving DecidableEq, Repr

/-- The running command's values that live from one micro-step to the next (R207, log 14). -/
structure Locals where
  /-- The value a query has read and will respond with (R138, R162, R163). -/
  val : Word
  /-- `ok`, the outcome of the last poll (R181 step 2). -/
  ok : Bool
  /-- `raw`, the last code read (R181 step 3a). -/
  raw : Half
  /-- `FAIL` (R46). -/
  fail : Bool
  deriving DecidableEq, Repr

/-- `STATUS` (30_encoding.md R108). -/
inductive Status where
  | ok
  | invalidConfig
  | convTimeout
  | indexOutOfRange
  | featureDisabled
  | illegalCommand
  deriving DecidableEq, Repr

/-- What `respond` presents on the response port (R23, R106). -/
structure Response where
  status : Status
  data : Word
  deriving DecidableEq, Repr

/-- A capability call as a trace records it, with what it answered (00_scope.md R20; delays are shown
where they fall, 95_test_vectors.md section 0). -/
inductive Call where
  | writePin (p : Pin) (v : Level)
  | readPin (p : Pin) (v : Level)
  | startChannel (i : Nat)
  | writeDuty (i : Nat) (v : Half)
  | delay (w : Wait)
  | clearOverflowFlag (j : Nat)
  | enableBaseInterrupt (j : Nat)
  | resetCounter (j : Nat)
  | startEncoderMode (j : Nat)
  | readCounter (j : Nat) (v : Half)
  | startConversion
  | pollForCompletion (ok : Bool)
  | readValue (raw : Half)
  | bufWrite (e : Nat) (v : Word)
  deriving DecidableEq, Repr

/-- A move of the environment that may fall between two micro-steps (60_exceptions.md R203 to R206). -/
inductive EnvMove where
  /-- Counter `j` makes one count step, if the reference environment has that move (R203, R205). -/
  | count (j : Nat) (d : WrapDir)
  /-- Counter `j` makes one count step even where that loses an event (U4, log 10). -/
  | overrun (j : Nat) (d : WrapDir)
  /-- The dispatcher delivers the pending event of counter `j` (R204). -/
  | deliver (j : Nat)
  /-- A word is presented on the event port, with no wrap behind it (log 11). -/
  | event (e : BitVec 8)
  deriving DecidableEq, Repr

/-- A move of the host; each waits while `SEQ` is busy (R206, U9). -/
inductive HostMove where
  /-- A command word on the command port; one step of the model runs it to its response (log 7). -/
  | issue (c : Word)
  /-- A command word on the command port; one step of the model accepts it, and each later step is one
  micro-step or one move of the environment (R45, log 7). -/
  | issueStepped (c : Word)
  /-- The host writes one element of its buffer between commands (R206). -/
  | write (e : Nat) (v : Word)
  deriving DecidableEq, Repr

/-- What happens next, as the environment, the host and the arbitration have it (R90, R210, log 5). -/
inductive Move where
  /-- The main line makes its next micro-step before anything later in the list. -/
  | main
  | env (m : EnvMove)
  | host (h : HostMove)
  deriving DecidableEq, Repr

/-- The environment's answers to one kind of draw (R24): those already given, oldest first, and how many
have been taken; past the given ones an answer is a free value (log 12). -/
structure Feed (α : Type) where
  given : List α
  taken : Nat
  deriving DecidableEq, Repr

@[ext]
structure State where
  /-- The build (R7 to R16); no step changes it (R49, log 1). -/
  cfg : Config
  /-- Motor slots; entry `k` is slot `k + 1` (R31 to R36, D42). -/
  motors : Vector MotorSlot 4
  /-- Encoder slots; entry `k` is slot `k + 1` (R38 to R43, D42). -/
  encs : Vector EncSlot 4
  /-- `CURBUF` (R47, log 3). -/
  curbuf : Vector Word 4
  /-- `SEQ` (R45). -/
  seq : Seq
  /-- The running command's values (R46, R207). -/
  locals : Locals
  /-- The model's own: the responses presented so far, oldest first (R48, log 13). -/
  responses : List Response
  /-- The model's own: the capability calls made so far, oldest first (log 13). -/
  trace : List Call
  /-- The model's own: what host and environment do, oldest first (log 5). -/
  agenda : List Move
  /-- The model's own: levels of the status pins (R37, log 12). -/
  pins : Feed Level
  /-- The model's own: outcomes of the polls (R82, log 12). -/
  polls : Feed Bool
  /-- The model's own: raw ADC codes (R83, log 12). -/
  raws : Feed Half
  deriving DecidableEq, Repr

/-- Why the machine stops. The core itself has no fault signal (R190). -/
inductive Fault where
  /-- Raised by `step` when `SEQ` names a micro-step its command does not have. No run from reset gets
  there (log 21). Safe: the model stops where the spec describes no state. -/
  | noSuchMicroStep
  deriving DecidableEq, Repr

/-- Why an instruction has no meaning in the model. -/
inductive Refusal where
  /-- Raised by an arm of `exec` whose instruction is not modelled; no arm raises it. Safe. -/
  | notModelled (mnemonic : String)
  deriving DecidableEq, Repr

/-- A motor slot after reset (R55). -/
def MotorSlot.reset : MotorSlot where
  state := .uninitialized
  duty := 0
  sleep := 0
  offp := 1
  dir := 0
  pwmRun := false

/-- An encoder slot after reset (R55). -/
def EncSlot.reset : EncSlot where
  ovf := 0
  cnt := 0
  uif := false
  wrapDir := .up
  uie := false
  encRun := false

/-- No command runs. DESIGN CHOICE (log 14), safe: the spec says these need no reset value (R46), and every
command writes each of them before it reads it. -/
def Locals.reset : Locals where
  val := 0
  ok := false
  raw := 0
  fail := false

/-- No answer given yet, none taken (log 12). -/
def Feed.empty {α : Type} : Feed α where
  given := []
  taken := 0

/-- The machine of build `c` right after reset (R55, R231), its buffer the host's content `buf` (R47). -/
def State.resetWith (c : Config) (buf : Vector Word 4) : State where
  cfg := c
  motors := Vector.replicate 4 MotorSlot.reset
  encs := Vector.replicate 4 EncSlot.reset
  curbuf := buf
  seq := .idle
  locals := Locals.reset
  responses := []
  trace := []
  agenda := []
  pins := Feed.empty
  polls := Feed.empty
  raws := Feed.empty

/-- The machine right after reset. DESIGN CHOICE (log 2, log 3), unsafe for a claim about this state alone: the
build is `Config.build` and the host's buffer holds zeros. -/
def State.reset : State := State.resetWith Config.build (Vector.replicate 4 0)

end Sys2Proof.Machine
end

