-- ==== Sys2Proof/Machine/Operands.lean ====
section
/-! DEFINITION. Operand forms and the arithmetic of the build (00_scope.md R12, R25, R26; 41_encoder.md
R163; 42_current.md R180, R182), and the one way to read or change an entry of a slot array. -/

namespace Sys2Proof.Machine

/-- Entry `i`, 1-based (R19), of a slot array. Outside `1..4`, where no rule reads, it is `d` (log 23). -/
def slotAt {α : Type} (d : α) (b : Vector α 4) : Nat → α
  | 0 => d
  | k + 1 => (b[k]?).getD d

/-- Entry `i`, 1-based, changed by `f`; outside `1..4` there is no entry to change. -/
def slotMap {α : Type} (b : Vector α 4) (f : α → α) : Nat → Vector α 4
  | 0 => b
  | k + 1 => if h : k < 4 then b.set k (f b[k]) else b

/-- `N_OK` (R7). -/
def motorCountOk (c : Config) : Bool := decide (1 ≤ c.motorCount) && decide (c.motorCount ≤ 4)

/-- `M_OK` (R8). -/
def encCountOk (c : Config) : Bool := decide (1 ≤ c.encCount) && decide (c.encCount ≤ 4)

/-- `motor_ok(i)` (R25). -/
def motorOk (c : Config) (i : Nat) : Bool :=
  motorCountOk c && decide (1 ≤ i) && decide (i ≤ c.motorCount)

/-- `enc_ok(j)` (R25). -/
def encOk (c : Config) (j : Nat) : Bool :=
  encCountOk c && decide (1 ≤ j) && decide (j ≤ c.encCount)

/-- The second precondition of `MINIT` fails (R131 P2). -/
def adcCountMismatch (c : Config) : Bool :=
  c.curEn && !c.curFull && decide (c.adcNconv ≠ c.motorCount)

/-- `clamp(d) = min(d, DUTY_LIMIT)` (R26). -/
def clamp (c : Config) (d : Half) : Half := if d ≤ c.dutyLimit then d else c.dutyLimit

/-- `DUTY_LIMIT div 2` (R131 step 9b). -/
def halfDuty (c : Config) : Half := BitVec.ofNat 16 (c.dutyLimit.toNat / 2)

/-- `K`, the channels of one `CGETCUR` pass; `K_FULL = 4` (R12, R180). -/
def channelCount (c : Config) : Nat := if c.curFull then 4 else c.motorCount

/-- `scale(raw)`, an exact product (R182). -/
def scale (c : Config) (raw : Half) : Word := BitVec.ofNat 32 (raw.toNat * c.curGain.toNat)

/-- The low `ADC_BITS` bits of a code: what `readValue` can return (R83). -/
def adcCode (c : Config) (raw : Half) : Half := BitVec.ofNat 16 (raw.toNat % 2 ^ c.adcBits)

/-- `low_32(MODULUS * signed_32(OVF) + CNT)` (R163). -/
def position (c : Config) (e : EncSlot) : Word :=
  BitVec.ofInt 32 ((c.modulus : Int) * e.ovf.toInt + (e.cnt.toNat : Int))

/-- The motor slot `i` of a state. -/
def State.motor (s : State) (i : Nat) : MotorSlot := slotAt MotorSlot.reset s.motors i

/-- The encoder slot `j` of a state. -/
def State.enc (s : State) (j : Nat) : EncSlot := slotAt EncSlot.reset s.encs j

end Sys2Proof.Machine
end

