-- ==== Sys2Proof/Machine/Flags.lean ====
section
/-! DEFINITION. The codes of what the core holds and presents by name (10_state.md R31, R41; 30_encoding.md
R106 to R108), and its one flag, `FAIL`, as the status it becomes (R46). The core has no condition codes (R57). -/

namespace Sys2Proof.Machine

/-- The 3-bit code of a lifecycle state (R31). -/
def lifecycleCode : Lifecycle → BitVec 3
  | .uninitialized => 0
  | .sleeping => 1
  | .waking => 2
  | .standby => 3
  | .running => 4
  | .stopped => 5
  | .off => 6

/-- The bit `WRAPDIR` holds (R41). -/
def wrapDirCode : WrapDir → BitVec 1
  | .up => 0
  | .down => 1

/-- The 4-bit code of a status (R108). -/
def statusCode : Status → BitVec 4
  | .ok => 0x0
  | .invalidConfig => 0x1
  | .convTimeout => 0x2
  | .indexOutOfRange => 0x3
  | .featureDisabled => 0x4
  | .illegalCommand => 0x5

/-- `OKFLAG` (R107). -/
def okFlag (r : Response) : Bool := decide (statusCode r.status = 0)

/-- The response as one 36-bit word, `STATUS ++ DATA` (R106). -/
def responseWord (r : Response) : BitVec 36 := statusCode r.status ++ r.data

/-- The status of a finished pass of `CGETCUR` (R181 step E). -/
def passStatus (fail : Bool) : Status := if fail then .convTimeout else .ok

end Sys2Proof.Machine
end

