-- ==== Sys2Proof/Machine/Ops.lean ====
section
/-! DEFINITION. The named operations every command is made of: capability calls with their exact effects
(20_memory.md R72 to R84), the core's own state writes, `respond` (00_scope.md R23), taking an event
(41_encoder.md R164 to R166), the moves of the reference environment (60_exceptions.md R203 to R205), and a
command as the sequence of its atomic micro-steps with the environment's moves between them
(20_memory.md R88 to R90). -/

namespace Sys2Proof.Machine

/-- One atomic micro-step of the main line (R88). -/
abbrev MicroStep := State → State

/-! ### Draws (R24) -/

/-- The next answer of a feed: a given one, or the free value at the number of answers taken (log 12). -/
def draw {α : Type} (free : Nat → α) (f : Feed α) : α × Feed α :=
  match f.given with
  | a :: rest => (a, ⟨rest, f.taken + 1⟩)
  | [] => (free f.taken, ⟨[], f.taken + 1⟩)

/-- The answer the `k`-th further draw of a feed gives, from 0. -/
def feedNth {α : Type} (free : Nat → α) (f : Feed α) (k : Nat) : α :=
  (f.given[k]?).getD (free (f.taken + k))

/-! ### State writes and capability calls -/

/-- A capability call is recorded in the trace. -/
def record (c : Call) : MicroStep := fun s => { s with trace := s.trace ++ [c] }

def onMotor (i : Nat) (f : MotorSlot → MotorSlot) : MicroStep := fun s =>
  { s with motors := slotMap s.motors f i }

def onEnc (j : Nat) (f : EncSlot → EncSlot) : MicroStep := fun s =>
  { s with encs := slotMap s.encs f j }

/-- A micro-step that changes no state: a test that passes, a value computed from the operands. -/
def noChange : MicroStep := fun s => s

/-- `MSTATE[i] <- st` (R31). -/
def setState (i : Nat) (st : Lifecycle) : MicroStep := onMotor i fun m => { m with state := st }

/-- `MSTATE[i] <- (if DIR[i] = 1 then Running else Stopped)` (R137 step 2). -/
def setStateByDir (i : Nat) : MicroStep :=
  onMotor i fun m => { m with state := if m.dir = 1 then .running else .stopped }

/-- The latch a `writePin` drives (R72); an input pin has none. -/
def latch (p : Pin) (v : Level) : MicroStep :=
  match p with
  | .sleep i => onMotor i fun m => { m with sleep := v }
  | .off i => onMotor i fun m => { m with offp := v }
  | .dir i => onMotor i fun m => { m with dir := v }
  | .status _ => noChange

/-- `writePin(p, v)` (R72). -/
def writePin (p : Pin) (v : Level) : MicroStep := fun s => record (.writePin p v) (latch p v s)

/-- `v = readPin(p)`: a draw, kept for the response (R73, R138 step 1). -/
def readPin (p : Pin) : MicroStep := fun s =>
  let a := draw Config.freeLevel s.pins
  record (.readPin p a.1)
    { s with pins := a.2, locals := { s.locals with val := a.1.setWidth 32 } }

/-- `startChannel(PWM_CH[i])` (R74). -/
def startChannel (i : Nat) : MicroStep := fun s =>
  record (.startChannel i) (onMotor i (fun m => { m with pwmRun := true }) s)

/-- `writeDuty(PWM_CH[i], v)` (R75). -/
def writeDuty (i : Nat) (v : Half) : MicroStep := fun s =>
  record (.writeDuty i v) (onMotor i (fun m => { m with duty := v }) s)

/-- `delay(T)`: no state changes (R22). -/
def delay (w : Wait) : MicroStep := record (.delay w)

/-- `clearOverflowFlag(j)` (R76). -/
def clearOverflowFlag (j : Nat) : MicroStep := fun s =>
  record (.clearOverflowFlag j) (onEnc j (fun e => { e with uif := false }) s)

/-- `enableBaseInterrupt(j)` (R77). -/
def enableBaseInterrupt (j : Nat) : MicroStep := fun s =>
  record (.enableBaseInterrupt j) (onEnc j (fun e => { e with uie := true }) s)

/-- `resetCounter(j)` (R78). -/
def resetCounter (j : Nat) : MicroStep := fun s =>
  record (.resetCounter j) (onEnc j (fun e => { e with cnt := 0 }) s)

/-- `OVF[j] <- 0` (R161 step 3). -/
def clearOvf (j : Nat) : MicroStep := onEnc j fun e => { e with ovf := 0 }

/-- `startEncoderMode(j)` (R79). -/
def startEncoderMode (j : Nat) : MicroStep := fun s =>
  record (.startEncoderMode j) (onEnc j (fun e => { e with encRun := true }) s)

/-- `v = readCounter(j)`, kept for the response (R80, R162 step 1). -/
def readCounter (j : Nat) : MicroStep := fun s =>
  record (.readCounter j (s.enc j).cnt)
    { s with locals := { s.locals with val := (s.enc j).cnt.setWidth 32 } }

/-- `(o, v) = (OVF[j], readCounter(j))` and the position they give, in one micro-step (R163 step 1, R93). -/
def readPosition (j : Nat) : MicroStep := fun s =>
  record (.readCounter j (s.enc j).cnt)
    { s with locals := { s.locals with val := position s.cfg (s.enc j) } }

/-- `FAIL <- 0` (R181 P3). -/
def clearFail : MicroStep := fun s => { s with locals := { s.locals with fail := false } }

/-- `startConversion()` (R81). -/
def startConversion : MicroStep := record .startConversion

/-- `ok = pollForCompletion(T_ADC_TO)` (R82). -/
def poll : MicroStep := fun s =>
  let a := draw Config.freePoll s.polls
  record (.pollForCompletion a.1) { s with polls := a.2, locals := { s.locals with ok := a.1 } }

/-- `if ok then raw = readValue()` (R83, R181 step 3a). -/
def readValueIfOk : MicroStep := fun s =>
  if s.locals.ok then
    let a := draw Config.freeRaw s.raws
    record (.readValue (adcCode s.cfg a.1))
      { s with raws := a.2, locals := { s.locals with raw := adcCode s.cfg a.1 } }
  else s

/-- `BufWrite(e, v)` (R84): element `e` is entry `e + 1` of the array. -/
def bufWrite (e : Nat) (v : Word) : MicroStep := fun s =>
  record (.bufWrite e v) { s with curbuf := slotMap s.curbuf (fun _ => v) (e + 1) }

/-- `if ok then BufWrite(e, scale(raw))` (R181 step 3b). -/
def bufWriteIfOk (e : Nat) : MicroStep := fun s =>
  if s.locals.ok then bufWrite e (scale s.cfg s.locals.raw) s else s

/-- `if not ok then FAIL <- 1` (R181 step 3c). -/
def failIfNotOk : MicroStep := fun s =>
  if s.locals.ok then s else { s with locals := { s.locals with fail := true } }

/-! ### Ending a command, and its errors -/

/-- `respond(S, D)` (R23): the response is presented, the sequencer is idle, and the command's own values
are gone. It is also how every error ends a command (R190): nothing else is recorded (R196). -/
def respond (st : Status) (d : Word) : MicroStep := fun s =>
  { s with responses := s.responses ++ [⟨st, d⟩], seq := .idle, locals := Locals.reset }

/-- `respond(OK, v)` with the value a query has read (R138, R162, R163). -/
def respondVal : MicroStep := fun s => respond .ok s.locals.val s

/-- Step E of `CGETCUR` (R181). -/
def respondPass : MicroStep := fun s => respond (passStatus s.locals.fail) 0 s

/-! ### Taking an event (R164 to R166, R207) -/

/-- The accumulator's step on channel `j`: `OVF[j]` changes if `enc_ok(j)`, nothing else ever does (R164). -/
def accumulate (c : Config) (j : Nat) (f : Word → Word) (e : EncSlot) : EncSlot :=
  if encOk c j then { e with ovf := f e.ovf } else e

/-- Step 1 of `EVT.OVF j` (R165). -/
def countUp (c : Config) (j : Nat) : EncSlot → EncSlot := accumulate c j fun o => o + 1

/-- Step 1 of `EVT.UDF j` (R166). -/
def countDown (c : Config) (j : Nat) : EncSlot → EncSlot := accumulate c j fun o => o - 1

/-- `EVT.OVF j` (R165). -/
def overflowEvent (c : Config) (j : Nat) (es : Vector EncSlot 4) : Vector EncSlot 4 :=
  slotMap es (countUp c j) j

/-- `EVT.UDF j` (R166). -/
def underflowEvent (c : Config) (j : Nat) (es : Vector EncSlot 4) : Vector EncSlot 4 :=
  slotMap es (countDown c j) j

/-- An event word taken between two micro-steps (R89, R111). -/
def takeEventWord (c : Config) (w : BitVec 8) (es : Vector EncSlot 4) : Vector EncSlot 4 :=
  match decodeEvent w with
  | .ok (.evtOvf j) => overflowEvent c j es
  | .ok (.evtUdf j) => underflowEvent c j es
  | _ => es

/-! ### The reference environment (R203 to R205) -/

/-- The count step wraps: up from `MODULUS - 1`, or down from 0 (R203). -/
def wraps (c : Config) (d : WrapDir) (e : EncSlot) : Bool :=
  match d with
  | .up => decide (e.cnt.toNat + 1 = c.modulus)
  | .down => decide (e.cnt.toNat = 0)

/-- The raw count after one step, modulo `MODULUS` (R203). -/
def countValue (c : Config) (d : WrapDir) (cnt : Half) : Half :=
  match d with
  | .up => BitVec.ofNat 16 ((cnt.toNat + 1) % c.modulus)
  | .down => BitVec.ofNat 16 ((cnt.toNat + c.modulus - 1) % c.modulus)

/-- One count step of a counter; a wrap sets the pending flag and its direction (R203). -/
def countStep (c : Config) (d : WrapDir) (e : EncSlot) : EncSlot :=
  if wraps c d e then { e with cnt := countValue c d e.cnt, uif := true, wrapDir := d }
  else { e with cnt := countValue c d e.cnt }

/-- One count step where the reference environment has it: the counter runs (R203), and a wrap does not
fall on a wrap still pending (R205). -/
def countGuarded (c : Config) (d : WrapDir) (e : EncSlot) : EncSlot :=
  if e.encRun && !(wraps c d e && e.uif) then countStep c d e else e

/-- One count step of a running counter, the duty of R205 not kept (U4, log 10). -/
def countAnyway (c : Config) (d : WrapDir) (e : EncSlot) : EncSlot :=
  if e.encRun then countStep c d e else e

/-- An event is pending and enabled (R204). -/
def deliverable (e : EncSlot) : Bool := e.uif && e.uie

/-- Delivery on channel `j`: the flag is cleared and the accumulator takes the event, in one step (R204). -/
def deliver (c : Config) (j : Nat) (e : EncSlot) : EncSlot :=
  if deliverable e then
    match e.wrapDir with
    | .up => countUp c j { e with uif := false }
    | .down => countDown c j { e with uif := false }
  else e

/-- One move of the environment. -/
def envMove (c : Config) (m : EnvMove) (es : Vector EncSlot 4) : Vector EncSlot 4 :=
  match m with
  | .count j d => slotMap es (countGuarded c d) j
  | .overrun j d => slotMap es (countAnyway c d) j
  | .deliver j => slotMap es (deliver c j) j
  | .event w => takeEventWord c w es

/-! ### A command as its micro-steps (R45, R88, R90) -/

/-- The environment's moves that stand before the main line's next micro-step. -/
def gapEncs (c : Config) : List Move → Vector EncSlot 4 → Vector EncSlot 4
  | .env m :: rest, es => gapEncs c rest (envMove c m es)
  | _, es => es

/-- What is left of the agenda: a host move waits while a command runs (U9). -/
def gapRest : List Move → List Move
  | .env _ :: rest => gapRest rest
  | .main :: rest => rest
  | l => l

/-- The interleaving point between two micro-steps (R90). -/
def gap : MicroStep := fun s =>
  { s with encs := gapEncs s.cfg s.agenda s.encs, agenda := gapRest s.agenda }

/-- `n` interleaving points with no micro-step of the main line between them. -/
def gaps : Nat → State → State
  | 0, s => s
  | n + 1, s => gaps n (gap s)

/-- `SEQ` after a micro-step: the next one, unless the command has responded (R45). -/
def advance : MicroStep := fun s =>
  match s.seq with
  | .busy c k => { s with seq := .busy c (k + 1) }
  | .idle => s

/-- One micro-step and the advance of `SEQ`. -/
def microStep (f : MicroStep) : MicroStep := fun s => advance (f s)

/-- A command from its first micro-step to its response, the environment moving before each one. -/
def runSteps : List MicroStep → State → State
  | [], s => s
  | f :: rest, s => runSteps rest (microStep f (gap s))

/-- A command word is accepted: `SEQ <- BUSY(c, 1)` (R45). -/
def accept (c : Word) : MicroStep := fun s => { s with seq := .busy c 1 }

end Sys2Proof.Machine
end

