-- ==== Sys2Proof/Machine/Motor.lean ====
section
/-! DEFINITION. The MotorDriver commands (40_motor.md): for each, its micro-steps as the rule numbers them,
and its meaning; and the bridge function (R140). -/

namespace Sys2Proof.Machine

/-- Micro-step 0 of an indexed command whose index check fails (R130, R160, R193). -/
def indexError : List MicroStep := [respond .indexOutOfRange 0]

/-- A build-time precondition fails at its first test (R191). -/
def configError : List MicroStep := [respond .invalidConfig 0]

/-- The three micro-steps of `MSTOP` (R135 steps 1 to 3), which are also step 9 of `MINIT` (R131). -/
def brakeSteps (i : Nat) (v : Half) : List MicroStep :=
  [writePin (.dir i) 0, writeDuty i v, setState i .stopped]

/-- Steps 1 to 9c of `MINIT` for slot `i` (R131). -/
def wakeSteps (c : Config) (i : Nat) : List MicroStep :=
  [setState i .sleeping,
   fun s => setState i .waking (writePin (.sleep i) 1 s),
   delay .wake,
   writePin (.sleep i) 0,
   delay .pulse,
   fun s => setState i .standby (writePin (.sleep i) 1 s),
   startChannel i,
   writePin (.off i) 0] ++ brakeSteps i (halfDuty c)

/-- `MINIT` (R131): P1, P2, then every slot in ascending order (R97, R132). -/
def minitSteps (c : Config) : List MicroStep :=
  if motorCountOk c then
    if adcCountMismatch c then noChange :: configError
    else [noChange, noChange] ++ (List.range c.motorCount).flatMap (fun k => wakeSteps c (k + 1)) ++ [respond .ok 0]
  else configError

def execMinit (s : State) : Host.Outcome State Fault Refusal := .next (runSteps (minitSteps s.cfg) s)

/-- `MSTART i, d` (R133). -/
def mstartSteps (c : Config) (i : Nat) (d : Half) : List MicroStep :=
  if motorOk c i then
    [noChange, noChange, writeDuty i (clamp c d), delay .settle, writePin (.off i) 0, writePin (.dir i) 1,
     setState i .running, respond .ok 0]
  else indexError

def execMstart (i : Nat) (d : Half) (s : State) : Host.Outcome State Fault Refusal :=
  .next (runSteps (mstartSteps s.cfg i d) s)

/-- `MSETDUTY i, d` (R134). -/
def msetdutySteps (c : Config) (i : Nat) (d : Half) : List MicroStep :=
  if motorOk c i then [noChange, writeDuty i (clamp c d), respond .ok 0] else indexError

def execMsetduty (i : Nat) (d : Half) (s : State) : Host.Outcome State Fault Refusal :=
  .next (runSteps (msetdutySteps s.cfg i d) s)

/-- `MSTOP i, d` (R135). -/
def mstopSteps (c : Config) (i : Nat) (d : Half) : List MicroStep :=
  if motorOk c i then [noChange] ++ brakeSteps i (clamp c d) ++ [respond .ok 0] else indexError

def execMstop (i : Nat) (d : Half) (s : State) : Host.Outcome State Fault Refusal :=
  .next (runSteps (mstopSteps s.cfg i d) s)

/-- `MOFF i` (R136). -/
def moffSteps (c : Config) (i : Nat) : List MicroStep :=
  if motorOk c i then [noChange, writePin (.off i) 1, setState i .off, respond .ok 0] else indexError

def execMoff (i : Nat) (s : State) : Host.Outcome State Fault Refusal :=
  .next (runSteps (moffSteps s.cfg i) s)

/-- `MON i` (R137). -/
def monSteps (c : Config) (i : Nat) : List MicroStep :=
  if motorOk c i then [noChange, writePin (.off i) 0, setStateByDir i, respond .ok 0] else indexError

def execMon (i : Nat) (s : State) : Host.Outcome State Fault Refusal :=
  .next (runSteps (monSteps s.cfg i) s)

/-- `MGETSTATE i` (R138). -/
def mgetstateSteps (c : Config) (i : Nat) : List MicroStep :=
  if motorOk c i then [noChange, readPin (.status i), respondVal] else indexError

def execMgetstate (i : Nat) (s : State) : Host.Outcome State Fault Refusal :=
  .next (runSteps (mgetstateSteps s.cfg i) s)

/-- What the bridge of a slot does, by its pins (R140). -/
inductive Bridge where
  | asleep
  | coast
  | drive
  | brake
  deriving DecidableEq, Repr

/-- `bridge(i)` (R140). -/
def bridge (m : MotorSlot) : Bridge :=
  if m.sleep = 0 then .asleep
  else if m.offp = 1 then .coast
  else if m.dir = 1 then .drive
  else .brake

end Sys2Proof.Machine
end

