-- ==== Sys2Proof/Machine/Encoder.lean ====
section
/-! DEFINITION. The Encoder commands and the two events (41_encoder.md). -/

namespace Sys2Proof.Machine

/-- Steps 1 to 4 of `EINIT` for slot `j`; step 3 is one micro-step (R161, R87). -/
def encInitSteps (j : Nat) : List MicroStep :=
  [clearOverflowFlag j, enableBaseInterrupt j, fun s => clearOvf j (resetCounter j s), startEncoderMode j]

/-- `EINIT` (R161): P1, then every slot in descending order (R97). -/
def einitSteps (c : Config) : List MicroStep :=
  if encCountOk c then
    [noChange] ++ (List.range c.encCount).reverse.flatMap (fun k => encInitSteps (k + 1)) ++ [respond .ok 0]
  else configError

def execEinit (s : State) : Host.Outcome State Fault Refusal := .next (runSteps (einitSteps s.cfg) s)

/-- `EGETCNT j` (R162). -/
def egetcntSteps (c : Config) (j : Nat) : List MicroStep :=
  if encOk c j then [noChange, readCounter j, respondVal] else indexError

def execEgetcnt (j : Nat) (s : State) : Host.Outcome State Fault Refusal :=
  .next (runSteps (egetcntSteps s.cfg j) s)

/-- `EGETPOS j` (R163). -/
def egetposSteps (c : Config) (j : Nat) : List MicroStep :=
  if encOk c j then [noChange, readPosition j, respondVal] else indexError

def execEgetpos (j : Nat) (s : State) : Host.Outcome State Fault Refusal :=
  .next (runSteps (egetposSteps s.cfg j) s)

/-- `EVT.OVF j`, one atomic step (R165, R89); it has no response and leaves `SEQ` alone (R207). -/
def execEvtOvf (j : Nat) (s : State) : Host.Outcome State Fault Refusal :=
  .next { s with encs := overflowEvent s.cfg j s.encs }

/-- `EVT.UDF j` (R166). -/
def execEvtUdf (j : Nat) (s : State) : Host.Outcome State Fault Refusal :=
  .next { s with encs := underflowEvent s.cfg j s.encs }

end Sys2Proof.Machine
end

