-- ==== Sys2Proof/Machine/Current.lean ====
section
/-! DEFINITION. The CurrentSensor command (42_current.md). -/

namespace Sys2Proof.Machine

/-- Steps 1 to 3c of `CGETCUR` for channel `k` (R181); the element of channel `k` is `k - 1` (R183). A
micro-step of the branch not taken changes nothing (log 9). -/
def sampleSteps (k : Nat) : List MicroStep :=
  [startConversion, poll, readValueIfOk, bufWriteIfOk (k - 1), failIfNotOk]

/-- `CGETCUR` (R181): P1, P2, P3, then every channel in ascending order (R97). -/
def cgetcurSteps (c : Config) : List MicroStep :=
  if c.curEn then
    if !c.curFull && !motorCountOk c then noChange :: configError
    else [noChange, noChange, clearFail] ++ (List.range (channelCount c)).flatMap (fun k => sampleSteps (k + 1)) ++
      [respondPass]
  else [respond .featureDisabled 0]

def execCgetcur (s : State) : Host.Outcome State Fault Refusal := .next (runSteps (cgetcurSteps s.cfg) s)

end Sys2Proof.Machine
end

