-- ==== Sys2Proof/Machine/Dispatch.lean ====
section
/-! DEFINITION. One arm per instruction of the opcode table: its meaning. -/

namespace Sys2Proof.Machine

def exec (i : Instr) (s : State) : Host.Outcome State Fault Refusal :=
  match i with
  | .minit => Sys2Proof.Machine.execMinit s
  | .mstart i1 d => Sys2Proof.Machine.execMstart i1 d s
  | .msetduty i1 d => Sys2Proof.Machine.execMsetduty i1 d s
  | .mstop i1 d => Sys2Proof.Machine.execMstop i1 d s
  | .moff i1 => Sys2Proof.Machine.execMoff i1 s
  | .mon i1 => Sys2Proof.Machine.execMon i1 s
  | .mgetstate i1 => Sys2Proof.Machine.execMgetstate i1 s
  | .einit => Sys2Proof.Machine.execEinit s
  | .egetcnt j => Sys2Proof.Machine.execEgetcnt j s
  | .egetpos j => Sys2Proof.Machine.execEgetpos j s
  | .cgetcur => Sys2Proof.Machine.execCgetcur s
  | .evtOvf j => Sys2Proof.Machine.execEvtOvf j s
  | .evtUdf j => Sys2Proof.Machine.execEvtUdf j s

end Sys2Proof.Machine
end

