-- ==== Sys2Proof/Machine/Sequencer.lean ====
section
/-! DEFINITION. What a step does beside running a fetched word: taking the word from a port (10_state.md R48),
one micro-step of a running command (R45), the host's and the environment's other moves (60_exceptions.md
R203 to R206), and what happens when nobody moves. -/

namespace Sys2Proof.Machine

/-- The micro-steps of a command; an event has none, it is one step of the accumulator (R89). -/
def instrSteps (c : Config) : Instr → List MicroStep
  | .minit => minitSteps c
  | .mstart i d => mstartSteps c i d
  | .msetduty i d => msetdutySteps c i d
  | .mstop i d => mstopSteps c i d
  | .moff i => moffSteps c i
  | .mon i => monSteps c i
  | .mgetstate i => mgetstateSteps c i
  | .einit => einitSteps c
  | .egetcnt j => egetcntSteps c j
  | .egetpos j => egetposSteps c j
  | .cgetcur => cgetcurSteps c
  | .evtOvf _ | .evtUdf _ => []

/-- A reserved `OPC` is accepted and responds `ILLEGAL_COMMAND` (R110, R195). -/
def illegalSteps : List MicroStep := [respond .illegalCommand 0]

/-- The micro-steps of the command a word is (R118). -/
def wordSteps (c : Config) (w : Word) : List MicroStep :=
  match decodeCommand w with
  | .ok i => instrSteps c i
  | .error _ => illegalSteps

/-- Micro-step number `k`, from 1, of a command (R45, log 8). -/
def stepNumber (fs : List MicroStep) : Nat → Option MicroStep
  | 0 => none
  | k + 1 => fs[k]?

/-- The word a port offers and the core takes now, with the state that has taken it: an event at any point
where one may be taken (R90), a command only when `SEQ = IDLE` (R45). -/
def fetch (s : State) : Option (PortWord × State) :=
  match s.agenda with
  | .env (.event e) :: rest => some (.evt8 e, { s with agenda := rest })
  | .host (.issue c) :: rest =>
    if s.seq = .idle then some (.cmd32 c, accept c { s with agenda := rest }) else none
  | _ => none

/-- A fetched word that is no instruction: a reserved `OPC` (R110), or a reserved `KIND`, which changes no
state (R111). -/
def runReserved (w : PortWord) (s : State) : State :=
  match w with
  | .cmd32 _ => runSteps illegalSteps s
  | .evt8 _ => s

/-- The main line moves: the next micro-step of the running command, or nothing while idle (R45). -/
def mainMove (s : State) : Host.Outcome State Fault Refusal :=
  match s.seq with
  | .idle => .next s
  | .busy w k =>
    match stepNumber (wordSteps s.cfg w) k with
    | some f => .next (microStep f s)
    | none => .fault .noSuchMicroStep

/-- A host move while `SEQ = IDLE`; a command word to be run in one step is `fetch`'s. -/
def hostMove (h : HostMove) (s : State) : State :=
  match h with
  | .issue _ => s
  | .issueStepped c => accept c s
  | .write e v => { s with curbuf := slotMap s.curbuf (fun _ => v) (e + 1) }

/-- Nobody moves any more and the core is idle: a pending enabled event is delivered, lowest channel first,
for a flag that stays pending and enabled is eventually delivered (R204, log 6); else the core waits (R231). -/
def settle (s : State) : State :=
  match [1, 2, 3, 4].find? (fun j => deliverable (s.enc j)) with
  | some j => { s with encs := envMove s.cfg (.deliver j) s.encs }
  | none => s

/-- A step that fetches no word. -/
def otherMove (s : State) : Host.Outcome State Fault Refusal :=
  match s.agenda with
  | [] => if s.seq = .idle then .next (settle s) else mainMove s
  | .main :: rest => mainMove { s with agenda := rest }
  | .env m :: rest => .next { s with encs := envMove s.cfg m s.encs, agenda := rest }
  | .host h :: rest => if s.seq = .idle then .next (hostMove h { s with agenda := rest }) else mainMove s

/-- The state in which the core takes the word next: at the head of the agenda, the command port free. -/
def offer (s : State) : PortWord → State
  | .cmd32 c => { s with seq := .idle, agenda := .host (.issue c) :: s.agenda }
  | .evt8 e => { s with agenda := .env (.event e) :: s.agenda }

end Sys2Proof.Machine
end

