-- ==== Sys2Proof/Machine/Step.lean ====
section
/-! DEFINITION. One step of the machine: the next move of the agenda, and where the core takes a word, the
run of that word's instruction. -/

namespace Sys2Proof.Machine

/-- One step. A fetched word that decodes is `exec` of its instruction, in the state that has taken it. -/
def step (s : State) : Host.Outcome State Fault Refusal :=
  match fetch s with
  | some (w, t) =>
    match decode w with
    | .ok i => exec i t
    | .error _ => .next (runReserved w t)
  | none => otherMove s

/-- `s` with a table row's bits as the word its next step takes (log 22). -/
def State.withFetchWord (s : State) (nbits w : Nat) : State :=
  match tableWord nbits w with
  | some p => offer s p
  | none => s

end Sys2Proof.Machine
end

