-- ==== Sys2Proof/Safety.lean ====
section
/-! DEFINITION. The terms claims are stated in: what a good state is (10_state.md R50 to R54), the true
position (R53), what a command may respond (60_exceptions.md R197), and runs of instructions. -/

namespace Sys2Proof.Machine

/-- R50: no duty register exceeds `DUTY_LIMIT`. -/
def DutyBounded (s : State) : Prop := ∀ i, (s.motor i).duty ≤ s.cfg.dutyLimit

/-- The three states a slot is in only while `MINIT` runs (R51). -/
def transitional : Lifecycle → Bool
  | .sleeping | .waking | .standby => true
  | .uninitialized | .running | .stopped | .off => false

/-- `MINIT` runs and stands between its steps 1 and 9c for slot `i`: step 1 of slot `i` is micro-step
`11 * i - 8`, and step 9c is micro-step `11 * i + 2`. -/
def wakingSlot (s : State) (i : Nat) : Prop :=
  ∃ w k, s.seq = .busy w k ∧ decodeCommand w = .ok .minit ∧ 11 * i < k + 8 ∧ k ≤ 11 * i + 2

/-- R51: a slot is `Sleeping`, `Waking` or `Standby` only while `MINIT` is between its steps 1 and 9 for it. -/
def LifecycleLegal (s : State) : Prop :=
  ∀ i, transitional (s.motor i).state = true → wakingSlot s i

/-- R52: slots outside `1..N` and `1..M` hold their reset values. -/
def UnconfiguredAtReset (s : State) : Prop :=
  (∀ i, motorOk s.cfg i = false → s.motor i = MotorSlot.reset) ∧
    (∀ j, encOk s.cfg j = false → s.enc j = EncSlot.reset)

/-- R39: every raw counter is in `0..MODULUS-1`. -/
def CountsInRange (s : State) : Prop := ∀ j, (s.enc j).cnt.toNat < s.cfg.modulus

/-- `SEQ` names a micro-step its command has (R45). -/
def SeqInRange (s : State) : Prop :=
  ∀ w k, s.seq = .busy w k → 1 ≤ k ∧ k ≤ (wordSteps s.cfg w).length

/-- `FAIL` and the other values of a command do not survive it (R46). -/
def LocalsClean (s : State) : Prop := s.seq = .idle → s.locals = Locals.reset

/-- `pend(j)`: the wrap not yet counted (R53). -/
def pend (e : EncSlot) : Int :=
  if e.uif then (match e.wrapDir with | .up => 1 | .down => -1) else 0

/-- `MODULUS * (OVF[j] + pend(j)) + CNT[j]` as an integer (R53). -/
def truePosition (c : Config) (e : EncSlot) : Int :=
  (c.modulus : Int) * (e.ovf.toInt + pend e) + (e.cnt.toNat : Int)

/-- A lifecycle state agrees with what the pins make of the bridge (R140). -/
def agreesWithBridge (m : MotorSlot) : Prop :=
  (m.state = .running ↔ bridge m = .drive) ∧ (m.state = .stopped ↔ bridge m = .brake) ∧
    (m.state = .off ↔ bridge m = .coast)

/-- Which command can return which status (R197). -/
def mayReturn : Instr → Status → Bool
  | .minit, .ok | .minit, .invalidConfig => true
  | .mstart _ _, .ok | .mstart _ _, .indexOutOfRange => true
  | .msetduty _ _, .ok | .msetduty _ _, .indexOutOfRange => true
  | .mstop _ _, .ok | .mstop _ _, .indexOutOfRange => true
  | .moff _, .ok | .moff _, .indexOutOfRange => true
  | .mon _, .ok | .mon _, .indexOutOfRange => true
  | .mgetstate _, .ok | .mgetstate _, .indexOutOfRange => true
  | .einit, .ok | .einit, .invalidConfig => true
  | .egetcnt _, .ok | .egetcnt _, .indexOutOfRange => true
  | .egetpos _, .ok | .egetpos _, .indexOutOfRange => true
  | .cgetcur, .ok | .cgetcur, .invalidConfig | .cgetcur, .convTimeout | .cgetcur, .featureDisabled => true
  | _, _ => false

/-- Does the command return a value in `DATA` (R106)? -/
def returnsData : Instr → Bool
  | .mgetstate _ | .egetcnt _ | .egetpos _ => true
  | .minit | .mstart _ _ | .msetduty _ _ | .mstop _ _ | .moff _ | .mon _
  | .einit | .cgetcur | .evtOvf _ | .evtUdf _ => false

/-- Instructions executed one after the other, from the first to the last. -/
def runInstrs : List Instr → State → Host.Outcome State Fault Refusal
  | [], s => .next s
  | i :: rest, s =>
    match exec i s with
    | .next t => runInstrs rest t
    | .fault r => .fault r
    | .refused r => .refused r

/-- `s` after a command of `n` micro-steps that made the calls `tr` and responded `r`: the environment has
moved at the `n` interleaving points, `SEQ` is idle, no value of the command is left, and nothing else has
changed. What a command writes is stated on top of this. -/
def answered (n : Nat) (s : State) (r : Response) (tr : List Call) : State :=
  { gaps n s with
    seq := .idle
    locals := Locals.reset
    responses := s.responses ++ [r]
    trace := s.trace ++ tr }

/-- The lifecycle states of a state, forgotten. -/
def forgetLifecycle (s : State) : State :=
  { s with motors := s.motors.map fun m => { m with state := .uninitialized } }

/-- The lifecycle state of a slot after the first `r` of its eleven wake micro-steps (R131, D11). -/
def wakeState (before : Lifecycle) (r : Nat) : Lifecycle :=
  if r = 0 then before
  else if r < 2 then .sleeping
  else if r < 6 then .waking
  else if r < 11 then .standby
  else .stopped

/-- Every configured slot is awake and its lifecycle state says what its bridge does (R140). -/
def BridgeAgrees (s : State) : Prop :=
  ∀ i, motorOk s.cfg i = true → (s.motor i).sleep = 1 ∧ agreesWithBridge (s.motor i)

/-- How many of a run's instructions are overflow events on channel `j`. -/
def overflowsOn (j : Nat) (l : List Instr) : Nat := l.countP fun i => decide (i = .evtOvf j)

/-- How many are underflow events on channel `j`. -/
def underflowsOn (j : Nat) (l : List Instr) : Nat := l.countP fun i => decide (i = .evtUdf j)

/-- The calls `MINIT` makes for slot `i` (R131). -/
def wakeTrace (c : Config) (i : Nat) : List Call :=
  [.writePin (.sleep i) 1, .delay .wake, .writePin (.sleep i) 0, .delay .pulse, .writePin (.sleep i) 1,
   .startChannel i, .writePin (.off i) 0, .writePin (.dir i) 0, .writeDuty i (halfDuty c)]

/-- The calls `EINIT` makes for slot `j` (R161). -/
def encInitTrace (j : Nat) : List Call :=
  [.clearOverflowFlag j, .enableBaseInterrupt j, .resetCounter j, .startEncoderMode j]

/-- A motor slot after a successful `MINIT` (R139). -/
def wokenSlot (c : Config) : MotorSlot where
  state := .stopped
  duty := halfDuty c
  sleep := 1
  offp := 0
  dir := 0
  pwmRun := true

/-- The environment makes no move: nothing but the host's moves and the main line's is left to happen. -/
def quiet (s : State) : Prop := ∀ m, Move.env m ∉ s.agenda

/-- The time the delays of a trace take at least, in microseconds (R132, R252). -/
def delayTime (c : Config) : List Call → Nat
  | [] => 0
  | .delay w :: rest => c.waitTime w + delayTime c rest
  | _ :: rest => delayTime c rest

/-- Which channels of a pass complete, from the polls the environment answers (R181 step 2); channel `k + 1` is entry `k`. -/
def pollAnswer (s : State) (k : Nat) : Bool := feedNth Config.freePoll s.polls k

/-- How many codes a pass has read before channel `k + 1`: one for each channel before it that completed (R181 step 3). -/
def codesBefore (s : State) (k : Nat) : Nat := (List.range k).countP (pollAnswer s)

/-- The code channel `k + 1` reads if its conversion completes (R181 step 3a). -/
def codeAnswer (s : State) (k : Nat) : Half :=
  adcCode s.cfg (feedNth Config.freeRaw s.raws (codesBefore s k))

/-- The calls of a pass for channel `k + 1` (R181). -/
def sampleTrace (s : State) (k : Nat) : List Call :=
  if pollAnswer s k then
    [.startConversion, .pollForCompletion true, .readValue (codeAnswer s k),
     .bufWrite k (scale s.cfg (codeAnswer s k))]
  else [.startConversion, .pollForCompletion false]

/-- Element `e`, 0-based, of the caller's buffer (R47). -/
def State.bufferAt (s : State) (e : Nat) : Word := slotAt 0 s.curbuf (e + 1)

end Sys2Proof.Machine
end

