-- ==== Sys2Proof/Certificates/Slice0/Obligations.lean ====
section
/-! DEFINITION. What is claimed of the model, for the provers. -/

open Sys2Proof Sys2Proof.Machine

/-! ### Encoding -/

/-- R118, R100, R105, R109: decoding an encoded well-formed instruction gives it back. -/
def Obligations.DecodeInvertsEncode : Prop :=
  ∀ i : Instr, i.wf = true → decode (encode i) = .ok i

/-- R118: encoding a decoded word gives the word back, if the fields its command does not use are 0; and what a
word decodes to is well-formed. -/
def Obligations.EncodeInvertsDecode : Prop :=
  (∀ c i, decodeCommand c = .ok i → (i.usesIdx = false → idxOf c = 0) →
      (i.usesDuty = false → dutyOf c = 0) → encode i = .cmd32 c) ∧
    (∀ e i, decodeEvent e = .ok i → encode i = .evt8 e) ∧
    (∀ p i, decode p = .ok i → i.wf = true)

/-- R104: `MINIT`, `EINIT` and `CGETCUR` ignore `IDX`, and every command but `MSTART`, `MSETDUTY` and `MSTOP` ignores
`DUTY`: ignored bits do not change what a word decodes to, and encoding writes them as 0. -/
def Obligations.IgnoredFieldsDoNotMatter : Prop :=
  (∀ c c', opcOf c = opcOf c' →
      (opcOf c ∉ [0x01#8, 0x10#8, 0x20#8] → idxOf c = idxOf c') →
      (opcOf c ∈ [0x02#8, 0x03#8, 0x04#8] → dutyOf c = dutyOf c') →
      decodeCommand c' = decodeCommand c) ∧
    ∀ i c, encode i = .cmd32 c → (i ∈ [Instr.minit, .einit, .cgetcur] → idxOf c = 0) ∧
      ((∀ x d, i ≠ .mstart x d ∧ i ≠ .msetduty x d ∧ i ≠ .mstop x d) → dutyOf c = 0)

/-- R109: words written out from the table decode to the instructions they stand for. -/
def Obligations.TableWordsDecode : Prop :=
  decodeTableWord 32 0x01000000 = some .minit ∧ decodeTableWord 32 0x0201270F = some (.mstart 1 9999) ∧
  decodeTableWord 32 0x0402012C = some (.mstop 2 300) ∧ decodeTableWord 32 0x11010000 = some (.egetcnt 1) ∧
  decodeTableWord 32 0x20000000 = some .cgetcur ∧ decodeTableWord 8 0x21 = some (.evtUdf 1) ∧
  decodeTableWord 32 0x08010000 = none ∧ decodeTableWord 8 0x31 = none

/-- R106, R107, R108: the response as one word carries `STATUS` above `DATA`, and `OKFLAG` says status `OK`. -/
def Obligations.ResponseWordCarriesStatusAndData : Prop :=
  ∀ r : Response, (responseWord r).extractLsb' 32 4 = statusCode r.status ∧
    (responseWord r).extractLsb' 0 32 = r.data ∧ (okFlag r = true ↔ r.status = .ok)

/-! ### A step -/

/-- A step runs the decoded instruction. When the core takes a command word (idle, the host's word next) or an
event word (next on the event port) that decodes to `i`, the step is `exec` of `i`, in the state that has taken
the word: for a command `SEQ` is `BUSY(c, 1)` (R45), for an event nothing but the agenda has moved on. That the words
stand in an agenda, and that one step runs a whole command, is the model's choice (log 5, log 7). -/
def Obligations.StepRunsTheDecodedInstruction : Prop :=
  (∀ s c i rest, s.seq = .idle → s.agenda = .host (.issue c) :: rest → decode (.cmd32 c) = .ok i →
      step s = exec i { s with seq := .busy c 1, agenda := rest }) ∧
    (∀ s e i rest, s.agenda = .env (.event e) :: rest → decode (.evt8 e) = .ok i →
      step s = exec i { s with agenda := rest })

/-- R110, R195: every `OPC` outside the table is reserved; a word that holds one is accepted, responds
(`ILLEGAL_COMMAND`, 0), makes no call and changes no other state. -/
def Obligations.ReservedCommandRespondsIllegal : Prop :=
  ∀ s c rest, s.seq = .idle → s.agenda = .host (.issue c) :: rest →
    opcOf c ∉ [0x01#8, 0x02#8, 0x03#8, 0x04#8, 0x05#8, 0x06#8, 0x07#8, 0x10#8, 0x11#8, 0x12#8, 0x20#8] →
    step s = .next (answered 1 { s with agenda := rest } ⟨.illegalCommand, 0⟩ [])

/-- R111, R164: an event word with a reserved `KIND`, or with an index that is no configured channel, is taken
and changes no state. -/
def Obligations.ReservedEventChangesNothing : Prop :=
  ∀ s e rest, s.agenda = .env (.event e) :: rest →
    (kindOf e ≠ 1 ∧ kindOf e ≠ 2 ∨ encOk s.cfg (eidxOf e) = false) →
    step s = .next { s with agenda := rest }

/-- R45, U9: a word is accepted only when `SEQ = IDLE`, and sets `SEQ` to `BUSY(c, 1)`; while a command runs, a
host move waits and the command's next micro-step is made; so it is with nothing left to happen. The agenda and the
micro-step grain are the model's (log 5, log 7). -/
def Obligations.CommandAcceptedOnlyWhenIdle : Prop :=
  (∀ s c rest, s.seq = .idle → s.agenda = .host (.issueStepped c) :: rest →
      step s = .next { s with seq := .busy c 1, agenda := rest }) ∧
    (∀ s w k f, s.seq = .busy w k → stepNumber (wordSteps s.cfg w) k = some f →
      (s.agenda = [] ∨ ∃ h rest, s.agenda = .host h :: rest) → step s = .next (microStep f s))

/-- The two grains agree (log 7): a word run micro-step by micro-step, the environment moving between them as
the agenda says, ends in the state that running it in one step gives. -/
def Obligations.SteppedRunEqualsOneStep : Prop :=
  ∀ s c rest, s.seq = .idle → s.agenda = .host (.issueStepped c) :: rest →
    ∃ n t, step { s with agenda := .host (.issue c) :: rest } = .next t ∧ Sys2Proof.core.run n s = .next t

/-- R255: every command ends. From a state whose `SEQ` names a micro-step of its command, the sequencer is idle
after at most 47 micro-steps and the moves of the agenda. -/
def Obligations.EveryCommandEnds : Prop :=
  ∀ s, SeqInRange s → ∃ n t, n ≤ 47 + s.agenda.length ∧ Sys2Proof.core.run n s = .next t ∧ t.seq = .idle

/-! ### Reset -/

/-- R55: the state after reset, row by row, whatever the build and the host's buffer, which is as the host has it. -/
def Obligations.ResetStateIsTheTable : Prop :=
  ∀ c buf,
    (∀ i, 1 ≤ i → i ≤ 4 → (State.resetWith c buf).motor i =
      { state := .uninitialized, duty := 0, sleep := 0, offp := 1, dir := 0, pwmRun := false }) ∧
    (∀ j, 1 ≤ j → j ≤ 4 → (State.resetWith c buf).enc j =
      { ovf := 0, cnt := 0, uif := false, wrapDir := .up, uie := false, encRun := false }) ∧
    (State.resetWith c buf).seq = .idle ∧ (State.resetWith c buf).curbuf = buf ∧
    State.reset = State.resetWith State.reset.cfg State.reset.curbuf

/-- The state after reset meets every invariant below, whatever the build (with a modulus) and the host's buffer. -/
def Obligations.ResetMeetsInvariants : Prop :=
  ∀ c buf, 0 < c.modulus →
    DutyBounded (State.resetWith c buf) ∧ LifecycleLegal (State.resetWith c buf) ∧
    UnconfiguredAtReset (State.resetWith c buf) ∧ CountsInRange (State.resetWith c buf) ∧
    SeqInRange (State.resetWith c buf) ∧ LocalsClean (State.resetWith c buf)

/-! ### Capability calls -/

/-- R72, R74 to R79, R84: what each call writes, on one slot or one element; nothing else changes but the trace, which
records the call. -/
def Obligations.CapabilityCallsHaveTheirEffects : Prop :=
  ∀ (s : State) (i : Nat) (v : Level) (d : Half) (x : Word), 1 ≤ i → i ≤ 4 →
    (∀ p ∈ ([(writePin (.sleep i) v, .writePin (.sleep i) v, fun m => { m with sleep := v }),
          (writePin (.off i) v, .writePin (.off i) v, fun m => { m with offp := v }),
          (writePin (.dir i) v, .writePin (.dir i) v, fun m => { m with dir := v }),
          (startChannel i, .startChannel i, fun m => { m with pwmRun := true }),
          (writeDuty i d, .writeDuty i d, fun m => { m with duty := d })] :
          List (MicroStep × Call × (MotorSlot → MotorSlot))),
      p.1 s = { s with motors := (p.1 s).motors, trace := s.trace ++ [p.2.1] } ∧
      ∀ k, (p.1 s).motor k = if k = i then p.2.2 (s.motor k) else s.motor k) ∧
    (∀ p ∈ ([(clearOverflowFlag i, .clearOverflowFlag i, fun e => { e with uif := false }),
          (enableBaseInterrupt i, .enableBaseInterrupt i, fun e => { e with uie := true }),
          (resetCounter i, .resetCounter i, fun e => { e with cnt := 0 }),
          (startEncoderMode i, .startEncoderMode i, fun e => { e with encRun := true })] :
          List (MicroStep × Call × (EncSlot → EncSlot))),
      p.1 s = { s with encs := (p.1 s).encs, trace := s.trace ++ [p.2.1] } ∧
      ∀ k, (p.1 s).enc k = if k = i then p.2.2 (s.enc k) else s.enc k) ∧
    bufWrite (i - 1) x s =
      { s with curbuf := (bufWrite (i - 1) x s).curbuf, trace := s.trace ++ [.bufWrite (i - 1) x] } ∧
    ∀ e, (bufWrite (i - 1) x s).bufferAt e = if e = i - 1 then x else s.bufferAt e

/-- R87: doing a write twice in a row leaves the state of doing it once, but for the calls in the trace. -/
def Obligations.WritesAreIdempotent : Prop :=
  ∀ (s : State) (p : Pin) (v : Level) (i : Nat) (d : Half) (x : Word),
    ∀ f ∈ [writePin p v, startChannel i, writeDuty i d, clearOverflowFlag i, enableBaseInterrupt i, resetCounter i,
        startEncoderMode i, bufWrite i x],
      { f (f s) with trace := s.trace } = { f s with trace := s.trace }

/-! ### MotorDriver -/

/-- R131: `MINIT` refuses a bad count (P1) or a bad conversion count (P2) with no effect; otherwise it makes
every configured slot's calls in ascending order and leaves every configured slot woken and `Stopped`, the
others as they were. -/
def Obligations.MinitWakesEveryConfiguredSlot : Prop :=
  ∀ s : State,
    encode .minit = .cmd32 0x01000000 ∧
    (motorCountOk s.cfg = false → exec .minit s = .next (answered 1 s ⟨.invalidConfig, 0⟩ [])) ∧
    (motorCountOk s.cfg = true → adcCountMismatch s.cfg = true →
      exec .minit s = .next (answered 2 s ⟨.invalidConfig, 0⟩ [])) ∧
    (motorCountOk s.cfg = true → adcCountMismatch s.cfg = false →
      ∃ t, exec .minit s = .next t ∧
        (∀ i, t.motor i = if 1 ≤ i ∧ i ≤ s.cfg.motorCount then
          { state := .stopped, duty := BitVec.ofNat 16 (s.cfg.dutyLimit.toNat / 2), sleep := 1, offp := 0,
            dir := 0, pwmRun := true } else s.motor i) ∧
        t = { answered (3 + 11 * s.cfg.motorCount) s ⟨.ok, 0⟩
                ((List.range s.cfg.motorCount).flatMap fun k => wakeTrace s.cfg (k + 1)) with
              motors := t.motors })

/-- R131, R132: the slots are brought up one after the other. After the two tests, `i - 1` whole slots and `r`
of slot `i`'s eleven micro-steps, the slots before `i` are woken, those after it are as they were, and slot `i` is in
the lifecycle state its step number says. -/
def Obligations.MinitBringsSlotsUpInOrder : Prop :=
  ∀ (s : State) (i r : Nat), motorCountOk s.cfg = true → adcCountMismatch s.cfg = false →
    1 ≤ i → i ≤ s.cfg.motorCount → r ≤ 11 →
    ∃ t, t = runSteps ((minitSteps s.cfg).take (2 + 11 * (i - 1) + r)) s ∧
      (∀ k, 1 ≤ k → k < i → t.motor k = wokenSlot s.cfg) ∧ (∀ k, i < k → t.motor k = s.motor k) ∧
      (t.motor i).state = wakeState (s.motor i).state r

/-- R132: the delays of a successful `MINIT` add up to `N * (T_WAKE + T_PULSE)`. -/
def Obligations.MinitWaitsForEverySlot : Prop :=
  ∀ s : State, motorCountOk s.cfg = true → adcCountMismatch s.cfg = false →
    ∃ t tr, exec .minit s = .next t ∧ t.trace = s.trace ++ tr ∧
      delayTime s.cfg tr = s.cfg.motorCount * (s.cfg.tWake + s.cfg.tPulse)

/-- R133, R26: `MSTART` writes the clamped duty, waits, clears the OFF pin, sets the direction pin, and the
slot is `Running`; nothing else of the core changes. -/
def Obligations.MstartDrivesForward : Prop :=
  ∀ (s : State) (i : Nat) (d : Half),
    encode (.mstart i d) = .cmd32 (0x02#8 ++ BitVec.ofNat 8 i ++ d) ∧
    (motorOk s.cfg i = false → exec (.mstart i d) s = .next (answered 1 s ⟨.indexOutOfRange, 0⟩ [])) ∧
    (motorOk s.cfg i = true → ∃ t, exec (.mstart i d) s = .next t ∧
      (t.motor i).duty.toNat = min d.toNat s.cfg.dutyLimit.toNat ∧
      (∀ k, t.motor k = if k = i then
        { s.motor i with state := .running, duty := clamp s.cfg d, offp := 0, dir := 1 } else s.motor k) ∧
      t = { answered 8 s ⟨.ok, 0⟩ [.writeDuty i (clamp s.cfg d), .delay .settle, .writePin (.off i) 0,
              .writePin (.dir i) 1] with motors := t.motors })

/-- R134: `MSETDUTY` writes the clamped duty and nothing else. -/
def Obligations.MsetdutyChangesDutyOnly : Prop :=
  ∀ (s : State) (i : Nat) (d : Half),
    encode (.msetduty i d) = .cmd32 (0x03#8 ++ BitVec.ofNat 8 i ++ d) ∧
    (motorOk s.cfg i = false → exec (.msetduty i d) s = .next (answered 1 s ⟨.indexOutOfRange, 0⟩ [])) ∧
    (motorOk s.cfg i = true → ∃ t, exec (.msetduty i d) s = .next t ∧
      (t.motor i).duty.toNat = min d.toNat s.cfg.dutyLimit.toNat ∧
      (∀ k, t.motor k = if k = i then { s.motor i with duty := clamp s.cfg d } else s.motor k) ∧
      t = { answered 3 s ⟨.ok, 0⟩ [.writeDuty i (clamp s.cfg d)] with motors := t.motors })

/-- R135: `MSTOP` clears the direction pin, then writes the clamped duty, and the slot is `Stopped`; the OFF pin
is untouched. -/
def Obligations.MstopRemovesDrive : Prop :=
  ∀ (s : State) (i : Nat) (d : Half),
    encode (.mstop i d) = .cmd32 (0x04#8 ++ BitVec.ofNat 8 i ++ d) ∧
    (motorOk s.cfg i = false → exec (.mstop i d) s = .next (answered 1 s ⟨.indexOutOfRange, 0⟩ [])) ∧
    (motorOk s.cfg i = true → ∃ t, exec (.mstop i d) s = .next t ∧
      (t.motor i).duty.toNat = min d.toNat s.cfg.dutyLimit.toNat ∧
      (∀ k, t.motor k = if k = i then
        { s.motor i with state := .stopped, duty := clamp s.cfg d, dir := 0 } else s.motor k) ∧
      t = { answered 5 s ⟨.ok, 0⟩ [.writePin (.dir i) 0, .writeDuty i (clamp s.cfg d)] with
              motors := t.motors })

/-- R136: `MOFF` sets the OFF pin and the slot is `Off`; duty and direction are untouched. -/
def Obligations.MoffCoasts : Prop :=
  ∀ (s : State) (i : Nat),
    encode (.moff i) = .cmd32 (0x05#8 ++ BitVec.ofNat 8 i ++ 0x0000#16) ∧
    (motorOk s.cfg i = false → exec (.moff i) s = .next (answered 1 s ⟨.indexOutOfRange, 0⟩ [])) ∧
    (motorOk s.cfg i = true → ∃ t, exec (.moff i) s = .next t ∧
      (∀ k, t.motor k = if k = i then { s.motor i with state := .off, offp := 1 } else s.motor k) ∧
      t = { answered 4 s ⟨.ok, 0⟩ [.writePin (.off i) 1] with motors := t.motors })

/-- R137: `MON` clears the OFF pin and the slot is `Running` or `Stopped` as the direction latch says, which it
does not change. -/
def Obligations.MonFollowsTheDirectionLatch : Prop :=
  ∀ (s : State) (i : Nat),
    encode (.mon i) = .cmd32 (0x06#8 ++ BitVec.ofNat 8 i ++ 0x0000#16) ∧
    (motorOk s.cfg i = false → exec (.mon i) s = .next (answered 1 s ⟨.indexOutOfRange, 0⟩ [])) ∧
    (motorOk s.cfg i = true → ∃ t, exec (.mon i) s = .next t ∧
      (∀ k, t.motor k = if k = i then
        { s.motor i with state := if (s.motor i).dir = 1 then .running else .stopped, offp := 0 }
        else s.motor k) ∧
      t = { answered 4 s ⟨.ok, 0⟩ [.writePin (.off i) 0] with motors := t.motors })

/-- R138, R73: `MGETSTATE` responds with the level drawn for the status pin, zero-extended, and changes no state
of the core. The level is the environment's: the next given answer, or a free value. -/
def Obligations.MgetstateReturnsThePinLevel : Prop :=
  ∀ (s : State) (i : Nat),
    encode (.mgetstate i) = .cmd32 (0x07#8 ++ BitVec.ofNat 8 i ++ 0x0000#16) ∧
    (motorOk s.cfg i = false → exec (.mgetstate i) s = .next (answered 1 s ⟨.indexOutOfRange, 0⟩ [])) ∧
    (motorOk s.cfg i = true → ∃ v : Level, v = feedNth Config.freeLevel s.pins 0 ∧
      exec (.mgetstate i) s = .next { answered 3 s ⟨.ok, v.setWidth 32⟩ [.readPin (.status i) v] with
        pins := ⟨s.pins.given.tail, s.pins.taken + 1⟩ })

/-- R130, R160, R193: an indexed command whose index is out of range has no effect and responds
(`INDEX_OUT_OF_RANGE`, 0), and with an index in range it does not respond so. -/
def Obligations.OutOfRangeIndexIsANoop : Prop :=
  ∀ (s : State) (x : Nat) (d : Half) (i : Instr),
    (i ∈ [Instr.mstart x d, .msetduty x d, .mstop x d, .moff x, .mon x, .mgetstate x] ∧ motorOk s.cfg x = false ∨
      i ∈ [Instr.egetcnt x, .egetpos x] ∧ encOk s.cfg x = false →
      exec i s = .next (answered 1 s ⟨.indexOutOfRange, 0⟩ [])) ∧
    (i ∈ [Instr.mstart x d, .msetduty x d, .mstop x d, .moff x, .mon x, .mgetstate x] ∧ motorOk s.cfg x = true ∨
      i ∈ [Instr.egetcnt x, .egetpos x] ∧ encOk s.cfg x = true →
      ∃ t r, exec i s = .next t ∧ t.responses = s.responses ++ [r] ∧ r.status = .ok)

/-- R141: no instruction tests a lifecycle state. From two states that differ in lifecycle states only, everything else
ends the same, and every slot's lifecycle state either ends the same in both, or is in each what it was before. -/
def Obligations.NoCommandTestsTheLifecycle : Prop :=
  ∀ (i : Instr) (s t : State), forgetLifecycle s = forgetLifecycle t →
    ∃ s' t', exec i s = .next s' ∧ exec i t = .next t' ∧ forgetLifecycle s' = forgetLifecycle t' ∧
      ∀ k, (s'.motor k).state = (t'.motor k).state ∨
        (s'.motor k).state = (s.motor k).state ∧ (t'.motor k).state = (t.motor k).state

/-- R140: after a successful `MINIT` every configured slot's lifecycle state says what its bridge does, and every
instruction keeps that, but `MSTOP` on a slot whose OFF pin is set. -/
def Obligations.LifecycleAgreesWithBridge : Prop :=
  (∀ s, motorCountOk s.cfg = true → adcCountMismatch s.cfg = false →
      ∃ t, exec .minit s = .next t ∧ BridgeAgrees t) ∧
    (∀ i s, BridgeAgrees s → (∀ x d, i = .mstop x d → motorOk s.cfg x = true → (s.motor x).offp = 0) →
      ∃ t, exec i s = .next t ∧ BridgeAgrees t)

/-- R236, R135, R137: `MSTOP` on an awake coasting slot says `Stopped` while the bridge still coasts; `MON` after it
brakes. -/
def Obligations.StopOnACoastingSlotDoesNotBrake : Prop :=
  ∀ (s : State) (i : Nat) (d : Half), motorOk s.cfg i = true → (s.motor i).sleep = 1 → (s.motor i).offp = 1 →
    ∃ t u, exec (.mstop i d) s = .next t ∧ exec (.mon i) t = .next u ∧
      (t.motor i).state = .stopped ∧ bridge (t.motor i) = .coast ∧
      (u.motor i).state = .stopped ∧ bridge (u.motor i) = .brake

/-! ### Encoder -/

/-- R161: `EINIT` refuses a bad count with no effect. Otherwise, whatever the environment does meanwhile, it ends
with every configured channel enabled and running, and has made its calls in descending order; a channel that is not
configured is as the environment alone leaves it. -/
def Obligations.EinitStartsEveryConfiguredChannel : Prop :=
  ∀ s : State,
    encode .einit = .cmd32 0x10000000 ∧
    (encCountOk s.cfg = false → exec .einit s = .next (answered 1 s ⟨.invalidConfig, 0⟩ [])) ∧
    (encCountOk s.cfg = true → ∃ t, exec .einit s = .next t ∧
      (∀ j, 1 ≤ j → j ≤ s.cfg.encCount → (t.enc j).uie = true ∧ (t.enc j).encRun = true) ∧
      (∀ j, s.cfg.encCount < j → t.enc j = (gaps (2 + 4 * s.cfg.encCount) s).enc j) ∧
      t = { answered (2 + 4 * s.cfg.encCount) s ⟨.ok, 0⟩
              ((List.range s.cfg.encCount).reverse.flatMap fun k => encInitTrace (k + 1)) with
            encs := t.encs })

/-- R161, R76 to R79: where the environment makes no move during it, `EINIT` leaves every configured channel with
`UIF`, `CNT` and `OVF` zero, enabled and running, `WRAPDIR` as it was, and every other channel as it was. -/
def Obligations.EinitZeroesConfiguredChannels : Prop :=
  ∀ s : State, encCountOk s.cfg = true → quiet s →
    ∃ t, exec .einit s = .next t ∧
      ∀ j, t.enc j = if 1 ≤ j ∧ j ≤ s.cfg.encCount then
        { s.enc j with ovf := 0, cnt := 0, uif := false, uie := true, encRun := true } else s.enc j

/-- R161 step 3, R87: in micro-step `4 * (M - j) + 4` of `EINIT` the raw count and the overflow counter of channel `j` are
zeroed together, so the position is 0 whatever the environment did before; nothing else of the encoder state changes.
The numbers of micro-steps are the model's (log 8). -/
def Obligations.EinitZeroesThePositionInOneStep : Prop :=
  ∀ (s : State) (w : Word) (j : Nat), decodeCommand w = .ok .einit → encCountOk s.cfg = true → 1 ≤ j →
    j ≤ s.cfg.encCount → s.seq = .busy w (4 * (s.cfg.encCount - j) + 4) → s.agenda = [] →
    ∃ t, step s = .next t ∧ position t.cfg (t.enc j) = 0 ∧
      (∀ k, t.enc k = if k = j then { s.enc j with ovf := 0, cnt := 0 } else s.enc k) ∧
      t.seq = .busy w (4 * (s.cfg.encCount - j) + 5)

/-- R162: `EGETCNT` responds with the raw counter at its read (after the moves of two interleaving points),
zero-extended, and changes no state. -/
def Obligations.EgetcntReturnsTheRawCount : Prop :=
  ∀ (s : State) (j : Nat),
    encode (.egetcnt j) = .cmd32 (0x11#8 ++ BitVec.ofNat 8 j ++ 0x0000#16) ∧
    (encOk s.cfg j = false → exec (.egetcnt j) s = .next (answered 1 s ⟨.indexOutOfRange, 0⟩ [])) ∧
    (encOk s.cfg j = true → ∃ v : Half, v = ((gaps 2 s).enc j).cnt ∧
      exec (.egetcnt j) s = .next (answered 3 s ⟨.ok, v.setWidth 32⟩ [.readCounter j v]))

/-- R163, R168: `EGETPOS` responds with `low_32(MODULUS * OVF + CNT)`, both read at one moment (after the moves of
two interleaving points), and changes no state. -/
def Obligations.EgetposReturnsThePosition : Prop :=
  ∀ (s : State) (j : Nat),
    encode (.egetpos j) = .cmd32 (0x12#8 ++ BitVec.ofNat 8 j ++ 0x0000#16) ∧
    (encOk s.cfg j = false → exec (.egetpos j) s = .next (answered 1 s ⟨.indexOutOfRange, 0⟩ [])) ∧
    (encOk s.cfg j = true → ∃ e : EncSlot, e = (gaps 2 s).enc j ∧
      exec (.egetpos j) s = .next (answered 3 s
        ⟨.ok, BitVec.ofInt 32 ((s.cfg.modulus : Int) * e.ovf.toInt + (e.cnt.toNat : Int))⟩
        [.readCounter j e.cnt]))

/-- R163, R241: within the exact range the position read as signed is `MODULUS * OVF + CNT`: the true position when
nothing is pending, one modulus too small while an overflow is pending, one too large while an underflow is. -/
def Obligations.PositionIsTrueUpToThePendingWrap : Prop :=
  ∀ (c : Config) (e : EncSlot),
    -2147483648 ≤ (c.modulus : Int) * e.ovf.toInt + e.cnt.toNat →
    (c.modulus : Int) * e.ovf.toInt + e.cnt.toNat ≤ 2147483647 →
    (e.uif = false → (position c e).toInt = truePosition c e) ∧
    (e.uif = true → e.wrapDir = .up → (position c e).toInt = truePosition c e - c.modulus) ∧
    (e.uif = true → e.wrapDir = .down → (position c e).toInt = truePosition c e + c.modulus)

/-- R165, R164: `EVT.OVF` adds one to the overflow counter of a configured channel, modulo `2^32`, and does
nothing else; on any other channel it does nothing at all. -/
def Obligations.OverflowEventIncrements : Prop :=
  ∀ (s : State) (j : Nat),
    encode (.evtOvf j) = .evt8 (0x1#4 ++ BitVec.ofNat 4 j) ∧
    (encOk s.cfg j = false → exec (.evtOvf j) s = .next s) ∧
    (encOk s.cfg j = true → ∃ t, exec (.evtOvf j) s = .next t ∧
      (∀ k, t.enc k = if k = j then { s.enc j with ovf := (s.enc j).ovf + 1 } else s.enc k) ∧
      t = { s with encs := t.encs })

/-- R166, R164: `EVT.UDF` subtracts one, in the same way. -/
def Obligations.UnderflowEventDecrements : Prop :=
  ∀ (s : State) (j : Nat),
    encode (.evtUdf j) = .evt8 (0x2#4 ++ BitVec.ofNat 4 j) ∧
    (encOk s.cfg j = false → exec (.evtUdf j) s = .next s) ∧
    (encOk s.cfg j = true → ∃ t, exec (.evtUdf j) s = .next t ∧
      (∀ k, t.enc k = if k = j then { s.enc j with ovf := (s.enc j).ovf - 1 } else s.enc k) ∧
      t = { s with encs := t.encs })

/-- R167: events on channel `j` and `EGETCNT j` commands in any order change the position by `MODULUS` for each
overflow less `MODULUS` for each underflow, exactly where that stays in the range of a signed word; events on other
channels may stand among them. No other move of the environment falls in the run. -/
def Obligations.CountingLaw : Prop :=
  ∀ (s : State) (j : Nat) (l : List Instr), encOk s.cfg j = true → s.agenda = [] →
    (∀ i ∈ l, i = .egetcnt j ∨ ∃ k, i = .evtOvf k ∨ i = .evtUdf k) →
    ∃ t, runInstrs l s = .next t ∧
      (-2147483648 ≤ (position s.cfg (s.enc j)).toInt +
          (s.cfg.modulus : Int) * ((overflowsOn j l : Int) - (underflowsOn j l : Int)) →
        (position s.cfg (s.enc j)).toInt +
          (s.cfg.modulus : Int) * ((overflowsOn j l : Int) - (underflowsOn j l : Int)) ≤ 2147483647 →
        (position t.cfg (t.enc j)).toInt = (position s.cfg (s.enc j)).toInt +
          (s.cfg.modulus : Int) * ((overflowsOn j l : Int) - (underflowsOn j l : Int)))

/-- R209, R208: two events taken one after the other leave the same state in either order. -/
def Obligations.EventsCommute : Prop :=
  ∀ (s : State) (i k : Instr), i.isEvent = true → k.isEvent = true →
    ∃ t, runInstrs [i, k] s = .next t ∧ runInstrs [k, i] s = .next t

/-- R91: an event commutes with every micro-step of every command but `EINIT` and `EGETPOS`. -/
def Obligations.EventsCommuteWithMicroSteps : Prop :=
  ∀ (s : State) (i : Instr) (f : MicroStep) (e : BitVec 8), i ≠ .einit → (∀ j, i ≠ .egetpos j) →
    f ∈ instrSteps s.cfg i →
    f { s with encs := takeEventWord s.cfg e s.encs } = { f s with encs := takeEventWord s.cfg e (f s).encs }

/-! ### The reference environment -/

/-- R203, R205: a count step moves a running counter by one modulo `MODULUS`; a wrap sets `UIF` and `WRAPDIR`; with
`ENC_RUN` clear, or where it would wrap on a pending wrap, there is no such move. Nothing else changes. (A wrap on a
pending wrap is another move of the model, log 10.) -/
def Obligations.CountStepIsByOne : Prop :=
  ∀ (s : State) (j : Nat) (d : WrapDir) (rest : List Move), s.agenda = .env (.count j d) :: rest → 1 ≤ j → j ≤ 4 →
    CountsInRange s → s.cfg.modulus ≤ 65536 →
    ∃ t w, step s = .next t ∧
      w = (match d with
        | .up => decide ((s.enc j).cnt.toNat + 1 = s.cfg.modulus)
        | .down => decide ((s.enc j).cnt.toNat = 0)) ∧
      t = { s with agenda := rest, encs := t.encs } ∧ (∀ k, k ≠ j → t.enc k = s.enc k) ∧
      ((s.enc j).encRun = false ∨ w = true ∧ (s.enc j).uif = true → t.enc j = s.enc j) ∧
      ((s.enc j).encRun = true → w = true → (s.enc j).uif = false →
        t.enc j = { s.enc j with
          cnt := (match d with | .up => 0 | .down => BitVec.ofNat 16 (s.cfg.modulus - 1)),
          uif := true, wrapDir := d }) ∧
      ((s.enc j).encRun = true → w = false →
        t.enc j = { s.enc j with
          cnt := (match d with | .up => (s.enc j).cnt + 1 | .down => (s.enc j).cnt - 1) })

/-- R204, R165, R166, R164: delivery clears the flag of a pending enabled channel and the accumulator counts the wrap
by its direction, if the channel is configured, all in one step; a channel that is not pending or not enabled keeps
everything. -/
def Obligations.DeliveryTakesThePendingEvent : Prop :=
  ∀ (s : State) (j : Nat) (rest : List Move), s.agenda = .env (.deliver j) :: rest →
    ((s.enc j).uif = false ∨ (s.enc j).uie = false → step s = .next { s with agenda := rest }) ∧
    ((s.enc j).uif = true → (s.enc j).uie = true → ∃ t, step s = .next t ∧
      t = { s with agenda := rest, encs := t.encs } ∧
      ∀ k, t.enc k = if k = j then
        { s.enc j with uif := false,
                       ovf := if encOk s.cfg j then
                         (match (s.enc j).wrapDir with
                          | .up => (s.enc j).ovf + 1
                          | .down => (s.enc j).ovf - 1) else (s.enc j).ovf } else s.enc k)

/-- R204, R164 to R166, "a flag that stays pending and enabled is eventually delivered": an idle core with nothing left
on the agenda delivers every pending enabled event within four steps. Each such channel ends with its flag cleared and
the wrap counted by its direction (if the channel is configured) and its other fields kept; every other channel and the
rest of the state end as they were. That the core delivers then is the model's choice (log 6). -/
def Obligations.PendingEventsAreDelivered : Prop :=
  ∀ s : State, s.seq = .idle → s.agenda = [] →
    ∃ t, Sys2Proof.core.run 4 s = .next t ∧ t = { s with encs := t.encs } ∧
      ∀ j, t.enc j = if (s.enc j).uif = true ∧ (s.enc j).uie = true then
        { s.enc j with uif := false,
                       ovf := if encOk s.cfg j then
                         (match (s.enc j).wrapDir with
                          | .up => (s.enc j).ovf + 1
                          | .down => (s.enc j).ovf - 1) else (s.enc j).ovf } else s.enc j

/-- R206: while the core is idle the host may write one element of its buffer, and nothing else changes. That it writes
whole elements, one a step, is the model's choice (log 15). -/
def Obligations.HostWritesItsBuffer : Prop :=
  ∀ (s : State) (e : Nat) (v : Word) (rest : List Move), s.seq = .idle → s.agenda = .host (.write e v) :: rest →
    e < 4 → ∃ t, step s = .next t ∧ t = { s with agenda := rest, curbuf := t.curbuf } ∧
      ∀ x, t.bufferAt x = if x = e then v else s.bufferAt x

/-- R53: in the reference environment the true position changes by one at a count step that is made, in its
direction, and not at all at a delivery whose overflow counter does not wrap. -/
def Obligations.TruePositionFollowsTheShaft : Prop :=
  (∀ (s : State) (j : Nat) (d : WrapDir) (rest : List Move), s.agenda = .env (.count j d) :: rest → 1 ≤ j → j ≤ 4 →
      CountsInRange s → s.cfg.modulus ≤ 65536 → (s.enc j).encRun = true →
      (wraps s.cfg d (s.enc j) = true → (s.enc j).uif = false) →
      ∃ t, step s = .next t ∧ truePosition t.cfg (t.enc j) = truePosition s.cfg (s.enc j) +
        (match d with | .up => 1 | .down => -1)) ∧
    (∀ (s : State) (j : Nat) (rest : List Move), s.agenda = .env (.deliver j) :: rest →
      encOk s.cfg j = true → (s.enc j).ovf.toInt + pend (s.enc j) ≤ 2147483647 →
      -2147483648 ≤ (s.enc j).ovf.toInt + pend (s.enc j) →
      ∃ t, step s = .next t ∧ truePosition t.cfg (t.enc j) = truePosition s.cfg (s.enc j))

/-! ### CurrentSensor -/

/-- R181, R183, R184: `CGETCUR` refuses a disabled build and a bad count with no effect. Otherwise it makes one
conversion for each channel in ascending order; channel `k`'s scaled code is in element `k - 1` if its poll said so, and
that element keeps the host's content if not; it responds `CONV_TIMEOUT` iff some poll failed. Counting five
interleaving points for every channel, a timed-out one too, is the model's choice (log 9), and so is the form of the
environment's draws: given answers, then free values, a raw code cut to `ADC_BITS` bits (log 12). -/
def Obligations.CgetcurSamplesEveryChannel : Prop :=
  ∀ s : State,
    encode .cgetcur = .cmd32 0x20000000 ∧
    (s.cfg.curEn = false → exec .cgetcur s = .next (answered 1 s ⟨.featureDisabled, 0⟩ [])) ∧
    (s.cfg.curEn = true → s.cfg.curFull = false → motorCountOk s.cfg = false →
      exec .cgetcur s = .next (answered 2 s ⟨.invalidConfig, 0⟩ [])) ∧
    (s.cfg.curEn = true → (s.cfg.curFull = true ∨ motorCountOk s.cfg = true) →
      ∃ t K, K = (if s.cfg.curFull then 4 else s.cfg.motorCount) ∧ exec .cgetcur s = .next t ∧
        (∀ e, t.bufferAt e = if e < K ∧ pollAnswer s e = true then scale s.cfg (codeAnswer s e)
          else s.bufferAt e) ∧
        t = { answered (4 + 5 * K) s
                ⟨if ∃ k < K, pollAnswer s k = false then .convTimeout else .ok, 0⟩
                ((List.range K).flatMap (sampleTrace s)) with
              curbuf := t.curbuf
              polls := ⟨s.polls.given.drop K, s.polls.taken + K⟩
              raws := ⟨s.raws.given.drop (codesBefore s K), s.raws.taken + codesBefore s K⟩ })

/-- R182, R83: a scaled current is the exact product of code and gain, and a code has at most `ADC_BITS` bits. The
second clause holds because the model cuts a drawn code to its low `ADC_BITS` bits, its own choice (log 12). -/
def Obligations.ScaleIsExact : Prop :=
  ∀ (c : Config) (raw : Half), (scale c raw).toNat = raw.toNat * c.curGain.toNat ∧
    (c.adcBits ≤ 16 → (adcCode c raw).toNat < 2 ^ c.adcBits)

/-! ### Whole-machine rules -/

/-- R106, R197, R23: a command gives exactly one response, of a status its row of R197 has, with `DATA` 0 unless the
command returns a value and the status is `OK`, and the sequencer is idle; an event gives none. -/
def Obligations.OneResponsePerCommand : Prop :=
  ∀ (i : Instr) (s : State), ∃ t, exec i s = .next t ∧
    (i.isEvent = true → t.responses = s.responses ∧ t.seq = s.seq) ∧
    (i.isEvent = false → ∃ r, t.responses = s.responses ++ [r] ∧ mayReturn i r.status = true ∧
      (r.status ≠ .ok ∨ returnsData i = false → r.data = 0) ∧ t.seq = .idle)

/-- R52, R91, R206: only a MotorDriver command changes a motor slot, only `CGETCUR` a buffer element, only `EINIT` and
the events an encoder slot beyond what the environment does; no instruction changes the build. -/
def Obligations.OnlyItsFamilyWritesEachState : Prop :=
  ∀ (i : Instr) (s : State), ∃ t, exec i s = .next t ∧ t.cfg = s.cfg ∧
    (i.isMotor = false → t.motors = s.motors) ∧ (i ≠ .cgetcur → t.curbuf = s.curbuf) ∧
    (i ≠ .einit → i.isEvent = false → ∃ n, t.encs = (gaps n s).encs ∧ t.agenda = (gaps n s).agenda)

/-- R15, R54, D29: in a build whose parameters are in range, no two wiring-table entries name the same pin. -/
def Obligations.NoTwoEntriesNameOnePin : Prop :=
  ∀ (c : Config) (p q : Pin) (x : PinId), c.wf = true → c.pinId p = some x → c.pinId q = some x → p = q

/-- R49: no step changes the build. -/
def Obligations.StepKeepsTheBuild : Prop :=
  ∀ s t, step s = .next t → t.cfg = s.cfg

/-- R50: every step keeps every duty register within `DUTY_LIMIT`. -/
def Obligations.StepKeepsDutyBounded : Prop :=
  ∀ s t, DutyBounded s → step s = .next t → DutyBounded t

/-- R51: every step keeps the lifecycle legal: a slot is `Sleeping`, `Waking` or `Standby` only while `MINIT` is
between its steps 1 and 9 for it. -/
def Obligations.StepKeepsLifecycleLegal : Prop :=
  ∀ s t, LifecycleLegal s → step s = .next t → LifecycleLegal t

/-- R52: every step keeps the slots that are not configured at their reset values. -/
def Obligations.StepKeepsUnconfiguredAtReset : Prop :=
  ∀ s t, UnconfiguredAtReset s → step s = .next t → UnconfiguredAtReset t

/-- R39: every step keeps every raw counter in `0..MODULUS-1`. -/
def Obligations.StepKeepsCountsInRange : Prop :=
  ∀ s t, CountsInRange s → step s = .next t → CountsInRange t

/-- R46, R49: every step keeps it so that no value of a command is left when the sequencer is idle. Which values those
are is the model's choice (log 14). -/
def Obligations.StepKeepsLocalsClean : Prop :=
  ∀ s t, LocalsClean s → step s = .next t → LocalsClean t

/-- R190: the machine never stops. From a state whose `SEQ` names a micro-step of its command, a step gives a next
state, and `SEQ` does so again. (The fault the model has for another `SEQ` is log 21.) -/
def Obligations.StepNeverStops : Prop :=
  ∀ s, SeqInRange s → ∃ t, step s = .next t ∧ SeqInRange t
end

