-- ==== Sys2Proof/Laws/Decode.lean ====
section
/-! SUPPORT. The fields of a built word, and what each decoder answers. -/

namespace Sys2Proof

/-! ### The fields of a word -/

@[simp] theorem opcOf_commandWord (o : BitVec 8) (i : Nat) (d : Half) : opcOf (commandWord o i d) = o := by
  apply BitVec.eq_of_getLsbD_eq
  intro k hk
  simp only [opcOf, commandWord, BitVec.getLsbD_extractLsb', hk, decide_true, Bool.true_and]
  change BitVec.getLsbD (w := 8 + 8 + 16) (o ++ BitVec.ofNat 8 i ++ d) _ = _
  rw [BitVec.getLsbD_append, if_neg (by omega), BitVec.getLsbD_append, if_neg (by omega)]
  congr 1
  omega

theorem idxOf_commandWord (o : BitVec 8) (i : Nat) (d : Half) : idxOf (commandWord o i d) = i % 256 := by
  have e : BitVec.extractLsb' 16 8 (commandWord o i d) = BitVec.ofNat 8 i := by
    apply BitVec.eq_of_getLsbD_eq
    intro k hk
    simp only [commandWord, BitVec.getLsbD_extractLsb', hk, decide_true, Bool.true_and]
    change BitVec.getLsbD (w := 8 + 8 + 16) (o ++ BitVec.ofNat 8 i ++ d) _ = _
    rw [BitVec.getLsbD_append, if_neg (by omega), BitVec.getLsbD_append, if_pos (by omega)]
    congr 1
    omega
  rw [idxOf, e, BitVec.toNat_ofNat]

@[simp] theorem dutyOf_commandWord (o : BitVec 8) (i : Nat) (d : Half) : dutyOf (commandWord o i d) = d := by
  apply BitVec.eq_of_getLsbD_eq
  intro k hk
  simp only [dutyOf, commandWord, BitVec.getLsbD_extractLsb', hk, decide_true, Bool.true_and]
  change BitVec.getLsbD (w := 8 + 8 + 16) (o ++ BitVec.ofNat 8 i ++ d) _ = _
  rw [BitVec.getLsbD_append, if_pos (by omega), Nat.zero_add]

@[simp] theorem kindOf_eventWord (o : BitVec 4) (i : Nat) : kindOf (eventWord o i) = o := by
  apply BitVec.eq_of_getLsbD_eq
  intro k hk
  simp only [kindOf, eventWord, BitVec.getLsbD_extractLsb', hk, decide_true, Bool.true_and]
  change BitVec.getLsbD (w := 4 + 4) (o ++ BitVec.ofNat 4 i) _ = _
  rw [BitVec.getLsbD_append, if_neg (by omega)]
  congr 1
  omega

theorem eidxOf_eventWord (o : BitVec 4) (i : Nat) : eidxOf (eventWord o i) = i % 16 := by
  have e : BitVec.extractLsb' 0 4 (eventWord o i) = BitVec.ofNat 4 i := by
    apply BitVec.eq_of_getLsbD_eq
    intro k hk
    simp only [eventWord, BitVec.getLsbD_extractLsb', hk, decide_true, Bool.true_and]
    change BitVec.getLsbD (w := 4 + 4) (o ++ BitVec.ofNat 4 i) _ = _
    rw [BitVec.getLsbD_append, if_pos (by omega), Nat.zero_add]
  rw [eidxOf, e, BitVec.toNat_ofNat]

theorem idxOf_lt (c : Word) : idxOf c < 256 := (c.extractLsb' 16 8).isLt

theorem eidxOf_lt (e : BitVec 8) : eidxOf e < 16 := (e.extractLsb' 0 4).isLt

/-- R100: a command word is its three fields. -/
theorem commandWord_fields (c : Word) : commandWord (opcOf c) (idxOf c) (dutyOf c) = c := by
  apply BitVec.eq_of_getLsbD_eq
  intro k hk
  simp only [commandWord, opcOf, idxOf, dutyOf, BitVec.ofNat_toNat, BitVec.setWidth_eq]
  change BitVec.getLsbD (w := 8 + 8 + 16) (BitVec.extractLsb' 24 8 c ++ BitVec.extractLsb' 16 8 c ++
    BitVec.extractLsb' 0 16 c) k = _
  simp only [BitVec.getLsbD_append, BitVec.getLsbD_extractLsb']
  by_cases h : k < 16
  · simp [h]
  · by_cases h2 : k < 24
    · simp [h, show k - 16 < 8 by omega, show 16 + (k - 16) = k by omega]
    · simp [h, show ¬ (k - 16 < 8) by omega, show k - 16 - 8 < 8 by omega,
        show 24 + (k - 16 - 8) = k by omega]

/-- R105: an event word is its two fields. -/
theorem eventWord_fields (e : BitVec 8) : eventWord (kindOf e) (eidxOf e) = e := by
  apply BitVec.eq_of_getLsbD_eq
  intro k hk
  simp only [eventWord, kindOf, eidxOf, BitVec.ofNat_toNat, BitVec.setWidth_eq]
  change BitVec.getLsbD (w := 4 + 4) (BitVec.extractLsb' 4 4 e ++ BitVec.extractLsb' 0 4 e) k = _
  simp only [BitVec.getLsbD_append, BitVec.getLsbD_extractLsb']
  by_cases h : k < 4
  · simp [h]
  · simp [h, show k - 4 < 4 by omega, show 4 + (k - 4) = k by omega]

/-! ### The decoders (R109, R118) -/

/-- A command word decodes to `i` just where its `OPC` is that of `i`'s row and `i` carries the fields the row uses. -/
theorem decodeCommand_ok_iff (c : Word) (i : Instr) : decodeCommand c = .ok i ↔
    (opcOf c = 0x01#8 ∧ i = .minit) ∨ (opcOf c = 0x02#8 ∧ i = .mstart (idxOf c) (dutyOf c)) ∨
    (opcOf c = 0x03#8 ∧ i = .msetduty (idxOf c) (dutyOf c)) ∨
    (opcOf c = 0x04#8 ∧ i = .mstop (idxOf c) (dutyOf c)) ∨ (opcOf c = 0x05#8 ∧ i = .moff (idxOf c)) ∨
    (opcOf c = 0x06#8 ∧ i = .mon (idxOf c)) ∨ (opcOf c = 0x07#8 ∧ i = .mgetstate (idxOf c)) ∨
    (opcOf c = 0x10#8 ∧ i = .einit) ∨ (opcOf c = 0x11#8 ∧ i = .egetcnt (idxOf c)) ∨
    (opcOf c = 0x12#8 ∧ i = .egetpos (idxOf c)) ∨ (opcOf c = 0x20#8 ∧ i = .cgetcur) := by
  simp only [← BitVec.toNat_inj]
  unfold decodeCommand
  split <;> simp [*, eq_comm (a := i)]
  all_goals tauto

/-- An event word decodes to `i` just where its `KIND` is that of `i`'s row and `i` carries its index. -/
theorem decodeEvent_ok_iff (e : BitVec 8) (i : Instr) : decodeEvent e = .ok i ↔
    (kindOf e = 1#4 ∧ i = .evtOvf (eidxOf e)) ∨ (kindOf e = 2#4 ∧ i = .evtUdf (eidxOf e)) := by
  simp only [← BitVec.toNat_inj]
  unfold decodeEvent
  split <;> simp [*, eq_comm (a := i)]
  all_goals tauto

/-- An event word never decodes to a command, nor a command word to an event. -/
theorem decode_isEvent {i : Instr} :
    (∀ c, decodeCommand c = .ok i → i.isEvent = false) ∧ (∀ e, decodeEvent e = .ok i → i.isEvent = true) := by
  refine ⟨fun c h => ?_, fun e h => ?_⟩
  · unfold decodeCommand at h
    split at h <;> cases h <;> rfl
  · unfold decodeEvent at h
    split at h <;> cases h <;> rfl

end Sys2Proof
end

