-- ==== Sys2Proof/Laws/State.lean ====
section
/-! SUPPORT. One lemma per field for each update of the state. -/

namespace Sys2Proof.Machine

/-! A call recorded in the trace changes the trace only. -/

@[simp] theorem record_cfg (c : Call) (s : State) : (record c s).cfg = s.cfg := rfl
@[simp] theorem record_motors (c : Call) (s : State) : (record c s).motors = s.motors := rfl
@[simp] theorem record_encs (c : Call) (s : State) : (record c s).encs = s.encs := rfl
@[simp] theorem record_curbuf (c : Call) (s : State) : (record c s).curbuf = s.curbuf := rfl
@[simp] theorem record_seq (c : Call) (s : State) : (record c s).seq = s.seq := rfl
@[simp] theorem record_locals (c : Call) (s : State) : (record c s).locals = s.locals := rfl
@[simp] theorem record_responses (c : Call) (s : State) : (record c s).responses = s.responses := rfl
@[simp] theorem record_trace (c : Call) (s : State) : (record c s).trace = s.trace ++ [c] := rfl
@[simp] theorem record_agenda (c : Call) (s : State) : (record c s).agenda = s.agenda := rfl
@[simp] theorem record_pins (c : Call) (s : State) : (record c s).pins = s.pins := rfl
@[simp] theorem record_polls (c : Call) (s : State) : (record c s).polls = s.polls := rfl
@[simp] theorem record_raws (c : Call) (s : State) : (record c s).raws = s.raws := rfl

/-! A write to a motor slot changes the motor array only (R52). -/

@[simp] theorem onMotor_cfg (i : Nat) (f : MotorSlot → MotorSlot) (s : State) : (onMotor i f s).cfg = s.cfg := rfl
@[simp] theorem onMotor_motors (i : Nat) (f : MotorSlot → MotorSlot) (s : State) : (onMotor i f s).motors = slotMap s.motors f i := rfl
@[simp] theorem onMotor_encs (i : Nat) (f : MotorSlot → MotorSlot) (s : State) : (onMotor i f s).encs = s.encs := rfl
@[simp] theorem onMotor_curbuf (i : Nat) (f : MotorSlot → MotorSlot) (s : State) : (onMotor i f s).curbuf = s.curbuf := rfl
@[simp] theorem onMotor_seq (i : Nat) (f : MotorSlot → MotorSlot) (s : State) : (onMotor i f s).seq = s.seq := rfl
@[simp] theorem onMotor_locals (i : Nat) (f : MotorSlot → MotorSlot) (s : State) : (onMotor i f s).locals = s.locals := rfl
@[simp] theorem onMotor_responses (i : Nat) (f : MotorSlot → MotorSlot) (s : State) : (onMotor i f s).responses = s.responses := rfl
@[simp] theorem onMotor_trace (i : Nat) (f : MotorSlot → MotorSlot) (s : State) : (onMotor i f s).trace = s.trace := rfl
@[simp] theorem onMotor_agenda (i : Nat) (f : MotorSlot → MotorSlot) (s : State) : (onMotor i f s).agenda = s.agenda := rfl
@[simp] theorem onMotor_pins (i : Nat) (f : MotorSlot → MotorSlot) (s : State) : (onMotor i f s).pins = s.pins := rfl
@[simp] theorem onMotor_polls (i : Nat) (f : MotorSlot → MotorSlot) (s : State) : (onMotor i f s).polls = s.polls := rfl
@[simp] theorem onMotor_raws (i : Nat) (f : MotorSlot → MotorSlot) (s : State) : (onMotor i f s).raws = s.raws := rfl

/-! A write to an encoder slot changes the encoder array only (R52). -/

@[simp] theorem onEnc_cfg (j : Nat) (f : EncSlot → EncSlot) (s : State) : (onEnc j f s).cfg = s.cfg := rfl
@[simp] theorem onEnc_motors (j : Nat) (f : EncSlot → EncSlot) (s : State) : (onEnc j f s).motors = s.motors := rfl
@[simp] theorem onEnc_encs (j : Nat) (f : EncSlot → EncSlot) (s : State) : (onEnc j f s).encs = slotMap s.encs f j := rfl
@[simp] theorem onEnc_curbuf (j : Nat) (f : EncSlot → EncSlot) (s : State) : (onEnc j f s).curbuf = s.curbuf := rfl
@[simp] theorem onEnc_seq (j : Nat) (f : EncSlot → EncSlot) (s : State) : (onEnc j f s).seq = s.seq := rfl
@[simp] theorem onEnc_locals (j : Nat) (f : EncSlot → EncSlot) (s : State) : (onEnc j f s).locals = s.locals := rfl
@[simp] theorem onEnc_responses (j : Nat) (f : EncSlot → EncSlot) (s : State) : (onEnc j f s).responses = s.responses := rfl
@[simp] theorem onEnc_trace (j : Nat) (f : EncSlot → EncSlot) (s : State) : (onEnc j f s).trace = s.trace := rfl
@[simp] theorem onEnc_agenda (j : Nat) (f : EncSlot → EncSlot) (s : State) : (onEnc j f s).agenda = s.agenda := rfl
@[simp] theorem onEnc_pins (j : Nat) (f : EncSlot → EncSlot) (s : State) : (onEnc j f s).pins = s.pins := rfl
@[simp] theorem onEnc_polls (j : Nat) (f : EncSlot → EncSlot) (s : State) : (onEnc j f s).polls = s.polls := rfl
@[simp] theorem onEnc_raws (j : Nat) (f : EncSlot → EncSlot) (s : State) : (onEnc j f s).raws = s.raws := rfl

/-! `respond` presents the response and idles the sequencer (R23). -/

@[simp] theorem respond_cfg (st : Status) (d : Word) (s : State) : (respond st d s).cfg = s.cfg := rfl
@[simp] theorem respond_motors (st : Status) (d : Word) (s : State) : (respond st d s).motors = s.motors := rfl
@[simp] theorem respond_encs (st : Status) (d : Word) (s : State) : (respond st d s).encs = s.encs := rfl
@[simp] theorem respond_curbuf (st : Status) (d : Word) (s : State) : (respond st d s).curbuf = s.curbuf := rfl
@[simp] theorem respond_seq (st : Status) (d : Word) (s : State) : (respond st d s).seq = .idle := rfl
@[simp] theorem respond_locals (st : Status) (d : Word) (s : State) : (respond st d s).locals = Locals.reset := rfl
@[simp] theorem respond_responses (st : Status) (d : Word) (s : State) : (respond st d s).responses = s.responses ++ [⟨st, d⟩] := rfl
@[simp] theorem respond_trace (st : Status) (d : Word) (s : State) : (respond st d s).trace = s.trace := rfl
@[simp] theorem respond_agenda (st : Status) (d : Word) (s : State) : (respond st d s).agenda = s.agenda := rfl
@[simp] theorem respond_pins (st : Status) (d : Word) (s : State) : (respond st d s).pins = s.pins := rfl
@[simp] theorem respond_polls (st : Status) (d : Word) (s : State) : (respond st d s).polls = s.polls := rfl
@[simp] theorem respond_raws (st : Status) (d : Word) (s : State) : (respond st d s).raws = s.raws := rfl

/-! Accepting a word sets `SEQ` only (R45). -/

@[simp] theorem accept_cfg (c : Word) (s : State) : (accept c s).cfg = s.cfg := rfl
@[simp] theorem accept_motors (c : Word) (s : State) : (accept c s).motors = s.motors := rfl
@[simp] theorem accept_encs (c : Word) (s : State) : (accept c s).encs = s.encs := rfl
@[simp] theorem accept_curbuf (c : Word) (s : State) : (accept c s).curbuf = s.curbuf := rfl
@[simp] theorem accept_seq (c : Word) (s : State) : (accept c s).seq = .busy c 1 := rfl
@[simp] theorem accept_locals (c : Word) (s : State) : (accept c s).locals = s.locals := rfl
@[simp] theorem accept_responses (c : Word) (s : State) : (accept c s).responses = s.responses := rfl
@[simp] theorem accept_trace (c : Word) (s : State) : (accept c s).trace = s.trace := rfl
@[simp] theorem accept_agenda (c : Word) (s : State) : (accept c s).agenda = s.agenda := rfl
@[simp] theorem accept_pins (c : Word) (s : State) : (accept c s).pins = s.pins := rfl
@[simp] theorem accept_polls (c : Word) (s : State) : (accept c s).polls = s.polls := rfl
@[simp] theorem accept_raws (c : Word) (s : State) : (accept c s).raws = s.raws := rfl

/-! The environment between two micro-steps changes the encoder array only (R91). -/

@[simp] theorem gap_cfg (s : State) : (gap s).cfg = s.cfg := rfl
@[simp] theorem gap_motors (s : State) : (gap s).motors = s.motors := rfl
@[simp] theorem gap_encs (s : State) : (gap s).encs = gapEncs s.cfg s.agenda s.encs := rfl
@[simp] theorem gap_curbuf (s : State) : (gap s).curbuf = s.curbuf := rfl
@[simp] theorem gap_seq (s : State) : (gap s).seq = s.seq := rfl
@[simp] theorem gap_locals (s : State) : (gap s).locals = s.locals := rfl
@[simp] theorem gap_responses (s : State) : (gap s).responses = s.responses := rfl
@[simp] theorem gap_trace (s : State) : (gap s).trace = s.trace := rfl
@[simp] theorem gap_agenda (s : State) : (gap s).agenda = gapRest s.agenda := rfl
@[simp] theorem gap_pins (s : State) : (gap s).pins = s.pins := rfl
@[simp] theorem gap_polls (s : State) : (gap s).polls = s.polls := rfl
@[simp] theorem gap_raws (s : State) : (gap s).raws = s.raws := rfl

/-! The advance of `SEQ` changes `SEQ` only (R45). -/

@[simp] theorem advance_cfg (s : State) : (advance s).cfg = s.cfg := by
  unfold advance
  split <;> rfl
@[simp] theorem advance_motors (s : State) : (advance s).motors = s.motors := by
  unfold advance
  split <;> rfl
@[simp] theorem advance_encs (s : State) : (advance s).encs = s.encs := by
  unfold advance
  split <;> rfl
@[simp] theorem advance_curbuf (s : State) : (advance s).curbuf = s.curbuf := by
  unfold advance
  split <;> rfl
@[simp] theorem advance_locals (s : State) : (advance s).locals = s.locals := by
  unfold advance
  split <;> rfl
@[simp] theorem advance_responses (s : State) : (advance s).responses = s.responses := by
  unfold advance
  split <;> rfl
@[simp] theorem advance_trace (s : State) : (advance s).trace = s.trace := by
  unfold advance
  split <;> rfl
@[simp] theorem advance_agenda (s : State) : (advance s).agenda = s.agenda := by
  unfold advance
  split <;> rfl
@[simp] theorem advance_pins (s : State) : (advance s).pins = s.pins := by
  unfold advance
  split <;> rfl
@[simp] theorem advance_polls (s : State) : (advance s).polls = s.polls := by
  unfold advance
  split <;> rfl
@[simp] theorem advance_raws (s : State) : (advance s).raws = s.raws := by
  unfold advance
  split <;> rfl

theorem advance_seq (s : State) :
    (advance s).seq = match s.seq with | .busy c k => .busy c (k + 1) | .idle => .idle := by
  unfold advance
  split <;> simp_all

theorem advance_of_idle {s : State} (h : s.seq = .idle) : advance s = s := by
  simp [advance, h]

theorem advance_of_busy {s : State} {c : Word} {k : Nat} (h : s.seq = .busy c k) :
    advance s = { s with seq := .busy c (k + 1) } := by
  simp [advance, h]

end Sys2Proof.Machine
end

