-- ==== Sys2Proof/Laws/Ops.lean ====
section
/-! SUPPORT. What the shared operations do, once each: slot arrays, draws, micro-steps that do not look at
the environment, and the environment's moves. -/

namespace Sys2Proof.Machine

/-! ### Slot arrays -/

@[simp] theorem slotAt_zero {α : Type} (d : α) (b : Vector α 4) : slotAt d b 0 = d := rfl

@[simp] theorem slotMap_zero {α : Type} (b : Vector α 4) (f : α → α) : slotMap b f 0 = b := rfl

/-- Changing entry `i` changes what entry `i` reads as, if there is one, and nothing else. -/
theorem slotAt_slotMap {α : Type} (d : α) (b : Vector α 4) (f : α → α) (i k : Nat) :
    slotAt d (slotMap b f i) k = if k = i ∧ 1 ≤ i ∧ i ≤ 4 then f (slotAt d b k) else slotAt d b k := by
  cases i with
  | zero => simp
  | succ i =>
    cases k with
    | zero => simp
    | succ k =>
      by_cases h : i < 4
      · simp only [slotMap, h, dif_pos, slotAt]
        by_cases e : k = i
        · subst e; simp [h]
        · rw [Vector.getElem?_set_ne (h := by omega)]
          simp [e]
      · simp only [slotMap, h, dif_neg, not_false_eq_true]
        rw [if_neg (by omega)]

theorem slotAt_slotMap_ne {α : Type} {d : α} {b : Vector α 4} {f : α → α} {i k : Nat} (h : k ≠ i) :
    slotAt d (slotMap b f i) k = slotAt d b k := by
  simp [slotAt_slotMap, h]

theorem slotAt_slotMap_eq {α : Type} {d : α} {b : Vector α 4} {f : α → α} {i : Nat}
    (h1 : 1 ≤ i) (h4 : i ≤ 4) : slotAt d (slotMap b f i) i = f (slotAt d b i) := by
  simp [slotAt_slotMap, h1, h4]

/-- Outside `1..4` there is no entry. -/
theorem slotAt_outside {α : Type} {d : α} {b : Vector α 4} {i : Nat} (h : i = 0 ∨ 4 < i) :
    slotAt d b i = d := by
  rcases h with rfl | h
  · rfl
  · obtain ⟨k, rfl⟩ : ∃ k, i = k + 1 := ⟨i - 1, by omega⟩
    simp [slotAt, Vector.getElem?_eq_none (show 4 ≤ k by omega)]

/-- Every entry of a uniform array is that value. -/
@[simp] theorem slotAt_replicate {α : Type} (d a : α) (i : Nat) :
    slotAt d (Vector.replicate 4 a) i = if 1 ≤ i ∧ i ≤ 4 then a else d := by
  cases i with
  | zero => simp
  | succ k =>
    by_cases h : k < 4
    · simp [slotAt, h]
    · simp [slotAt, h]

/-- Two arrays that read alike are one array. -/
theorem slots_ext {α : Type} {d : α} {a b : Vector α 4}
    (h : ∀ i, 1 ≤ i → i ≤ 4 → slotAt d a i = slotAt d b i) : a = b := by
  apply Vector.ext
  intro k hk
  simpa [slotAt, hk] using h (k + 1) (by omega) (by omega)

/-- A change that changes nothing. -/
theorem slotMap_id {α : Type} (b : Vector α 4) (f : α → α) (h : ∀ x, f x = x) (i : Nat) : slotMap b f i = b := by
  cases i with
  | zero => rfl
  | succ k => by_cases hk : k < 4 <;> simp [slotMap, hk, h]

/-- Two changes of one entry are one change. -/
theorem slotMap_slotMap {α : Type} (b : Vector α 4) (f g : α → α) (i : Nat) :
    slotMap (slotMap b f i) g i = slotMap b (fun x => g (f x)) i := by
  cases i with
  | zero => rfl
  | succ k =>
    by_cases h : k < 4
    · simp [slotMap, h]
    · simp [slotMap, h]

/-- Changes of different entries commute (R52). -/
theorem slotMap_comm {α : Type} (b : Vector α 4) (f g : α → α) {i k : Nat} (h : i ≠ k) :
    slotMap (slotMap b f i) g k = slotMap (slotMap b g k) f i := by
  cases i with
  | zero => rfl
  | succ i =>
    cases k with
    | zero => rfl
    | succ k =>
      have hne : i ≠ k := by omega
      by_cases hi : i < 4 <;> by_cases hk : k < 4 <;> simp [slotMap, hi, hk]
      rw [Vector.getElem_set_ne (h := hne), Vector.getElem_set_ne (h := hne.symm),
        Vector.set_comm (h := hne)]

theorem motor_onMotor (i k : Nat) (f : MotorSlot → MotorSlot) (s : State) :
    (onMotor i f s).motor k = if k = i ∧ 1 ≤ i ∧ i ≤ 4 then f (s.motor k) else s.motor k :=
  slotAt_slotMap _ _ _ _ _

theorem enc_onEnc (j k : Nat) (f : EncSlot → EncSlot) (s : State) :
    (onEnc j f s).enc k = if k = j ∧ 1 ≤ j ∧ j ≤ 4 then f (s.enc k) else s.enc k :=
  slotAt_slotMap _ _ _ _ _

/-! ### Indices -/

/-- A configured motor index is one of the array's (R25, D42). -/
theorem motorOk_range {c : Config} {i : Nat} (h : motorOk c i = true) : 1 ≤ i ∧ i ≤ 4 := by
  simp [motorOk, motorCountOk] at h
  omega

theorem encOk_range {c : Config} {j : Nat} (h : encOk c j = true) : 1 ≤ j ∧ j ≤ 4 := by
  simp [encOk, encCountOk] at h
  omega

/-! ### Operands -/

/-- R26: a clamped duty is within the limit. -/
theorem clamp_le (c : Config) (d : Half) : clamp c d ≤ c.dutyLimit := by
  unfold clamp
  split
  · assumption
  · exact BitVec.le_refl _

theorem clamp_toNat (c : Config) (d : Half) : (clamp c d).toNat = min d.toNat c.dutyLimit.toNat := by
  unfold clamp
  split <;> rename_i h <;> rw [BitVec.le_def] at h <;> omega

theorem halfDuty_le (c : Config) : halfDuty c ≤ c.dutyLimit := by
  have := c.dutyLimit.isLt
  rw [BitVec.le_def, halfDuty, BitVec.toNat_ofNat, Nat.mod_eq_of_lt (by omega)]
  omega

/-! ### Draws -/

/-- The first answer is the one drawn. -/
@[simp] theorem draw_fst {α : Type} (free : Nat → α) (f : Feed α) : (draw free f).1 = feedNth free f 0 := by
  rcases f with ⟨_ | ⟨a, r⟩, n⟩ <;> rfl

/-- After a draw the answers stand one place nearer. -/
@[simp] theorem feedNth_draw {α : Type} (free : Nat → α) (f : Feed α) (k : Nat) :
    feedNth free (draw free f).2 k = feedNth free f (k + 1) := by
  rcases f with ⟨_ | ⟨a, r⟩, n⟩ <;> simp [draw, feedNth, Nat.add_assoc, Nat.add_comm 1 k]

/-! ### Interleaving points -/

theorem gaps_succ (n : Nat) (s : State) : gaps (n + 1) s = gaps n (gap s) := rfl

theorem gaps_add (m n : Nat) (s : State) : gaps (m + n) s = gaps n (gaps m s) := by
  induction m generalizing s with
  | zero => simp [gaps]
  | succ m ih => rw [Nat.succ_add, gaps_succ, gaps_succ, ih]

/-- Interleaving points change the encoder array and the agenda only. -/
theorem gaps_eq (n : Nat) (s : State) :
    gaps n s = { s with encs := (gaps n s).encs, agenda := (gaps n s).agenda } := by
  induction n generalizing s with
  | zero => rfl
  | succ n ih => rw [gaps_succ, ih]; rfl

@[simp] theorem gaps_cfg (n : Nat) (s : State) : (gaps n s).cfg = s.cfg := by rw [gaps_eq]
@[simp] theorem gaps_motors (n : Nat) (s : State) : (gaps n s).motors = s.motors := by rw [gaps_eq]
@[simp] theorem gaps_curbuf (n : Nat) (s : State) : (gaps n s).curbuf = s.curbuf := by rw [gaps_eq]
@[simp] theorem gaps_seq (n : Nat) (s : State) : (gaps n s).seq = s.seq := by rw [gaps_eq]
@[simp] theorem gaps_locals (n : Nat) (s : State) : (gaps n s).locals = s.locals := by rw [gaps_eq]
@[simp] theorem gaps_responses (n : Nat) (s : State) : (gaps n s).responses = s.responses := by rw [gaps_eq]
@[simp] theorem gaps_trace (n : Nat) (s : State) : (gaps n s).trace = s.trace := by rw [gaps_eq]
@[simp] theorem gaps_pins (n : Nat) (s : State) : (gaps n s).pins = s.pins := by rw [gaps_eq]
@[simp] theorem gaps_polls (n : Nat) (s : State) : (gaps n s).polls = s.polls := by rw [gaps_eq]
@[simp] theorem gaps_raws (n : Nat) (s : State) : (gaps n s).raws = s.raws := by rw [gaps_eq]

/-- What the environment does depends on the build, the counters and the agenda only. -/
theorem gaps_congr (n : Nat) {s t : State} (hc : s.cfg = t.cfg) (he : s.encs = t.encs)
    (ha : s.agenda = t.agenda) :
    (gaps n s).encs = (gaps n t).encs ∧ (gaps n s).agenda = (gaps n t).agenda := by
  induction n generalizing s t with
  | zero => exact ⟨he, ha⟩
  | succ n ih => exact ih hc (by simp [gap, hc, he, ha]) (by simp [gap, ha])

theorem gap_of_nil {s : State} (h : s.agenda = []) : gap s = s := by
  rcases s with ⟨⟩
  simp_all [gap, gapEncs, gapRest]

/-- With nothing on the agenda the environment does nothing. -/
theorem gaps_of_nil (n : Nat) {s : State} (h : s.agenda = []) : gaps n s = s := by
  induction n with
  | zero => rfl
  | succ n ih => rw [gaps_succ, gap_of_nil h, ih]

theorem gapEncs_quiet {c : Config} {l : List Move} (h : ∀ m, Move.env m ∉ l) (es : Vector EncSlot 4) :
    gapEncs c l es = es := by
  cases l with
  | nil => rfl
  | cons a l =>
    cases a with
    | env m => exact absurd (List.mem_cons_self ..) (h m)
    | main => rfl
    | host _ => rfl

theorem gapRest_quiet {l : List Move} (h : ∀ m, Move.env m ∉ l) : ∀ m, Move.env m ∉ gapRest l := by
  cases l with
  | nil => exact h
  | cons a l =>
    cases a with
    | env m => exact absurd (List.mem_cons_self ..) (h m)
    | main => exact fun m hm => h m (List.mem_cons_of_mem _ hm)
    | host _ => exact h

/-- Where the environment makes no move the counters stay as they are. -/
theorem gaps_encs_quiet (n : Nat) {s : State} (h : ∀ m, Move.env m ∉ s.agenda) :
    (gaps n s).encs = s.encs := by
  induction n generalizing s with
  | zero => rfl
  | succ n ih => rw [gaps_succ, ih (gapRest_quiet h), gap_encs, gapEncs_quiet h]

/-! ### Commands -/

theorem runSteps_append (fs gs : List MicroStep) (s : State) :
    runSteps (fs ++ gs) s = runSteps gs (runSteps fs s) := by
  induction fs generalizing s with
  | nil => rfl
  | cons f fs ih => exact ih _

/-- The micro-steps of a command with no environment between them. -/
def runAlone : List MicroStep → State → State
  | [], s => s
  | f :: rest, s => runAlone rest (microStep f s)

@[simp] theorem runAlone_nil (s : State) : runAlone [] s = s := rfl

@[simp] theorem runAlone_cons (f : MicroStep) (fs : List MicroStep) (s : State) :
    runAlone (f :: fs) s = runAlone fs (microStep f s) := rfl

theorem runAlone_append (fs gs : List MicroStep) (s : State) :
    runAlone (fs ++ gs) s = runAlone gs (runAlone fs s) := by
  induction fs generalizing s with
  | nil => rfl
  | cons f fs ih => exact ih _

/-- The counters and the agenda of a state, replaced. -/
def withEnv (s : State) (es : Vector EncSlot 4) (ag : List Move) : State :=
  { s with encs := es, agenda := ag }

/-- A micro-step that neither reads nor writes the counters or the agenda. -/
def EnvBlind (f : MicroStep) : Prop := ∀ s es ag, f (withEnv s es ag) = withEnv (f s) es ag

theorem envBlind_noChange : EnvBlind noChange := fun _ _ _ => rfl
theorem envBlind_record (c : Call) : EnvBlind (record c) := fun _ _ _ => rfl
theorem envBlind_onMotor (i : Nat) (f : MotorSlot → MotorSlot) : EnvBlind (onMotor i f) := fun _ _ _ => rfl
theorem envBlind_comp {f g : MicroStep} (hf : EnvBlind f) (hg : EnvBlind g) : EnvBlind (fun s => g (f s)) :=
  fun s es ag => by
    show g (f (withEnv s es ag)) = withEnv (g (f s)) es ag
    rw [hf, hg]
theorem envBlind_setState (i : Nat) (st : Lifecycle) : EnvBlind (setState i st) := fun _ _ _ => rfl
theorem envBlind_setStateByDir (i : Nat) : EnvBlind (setStateByDir i) := fun _ _ _ => rfl
theorem envBlind_latch (p : Pin) (v : Level) : EnvBlind (latch p v) := by cases p <;> exact fun _ _ _ => rfl
theorem envBlind_writePin (p : Pin) (v : Level) : EnvBlind (writePin p v) :=
  envBlind_comp (f := latch p v) (g := record (.writePin p v)) (envBlind_latch p v) (envBlind_record _)
theorem envBlind_readPin (p : Pin) : EnvBlind (readPin p) := fun _ _ _ => rfl
theorem envBlind_startChannel (i : Nat) : EnvBlind (startChannel i) := fun _ _ _ => rfl
theorem envBlind_writeDuty (i : Nat) (v : Half) : EnvBlind (writeDuty i v) := fun _ _ _ => rfl
theorem envBlind_delay (w : Wait) : EnvBlind (delay w) := envBlind_record _
theorem envBlind_clearFail : EnvBlind clearFail := fun _ _ _ => rfl
theorem envBlind_startConversion : EnvBlind startConversion := envBlind_record _
theorem envBlind_poll : EnvBlind poll := fun _ _ _ => rfl
theorem envBlind_readValueIfOk : EnvBlind readValueIfOk := by
  intro s es ag
  by_cases h : s.locals.ok = true <;> simp [readValueIfOk, withEnv, h, record]
theorem envBlind_bufWriteIfOk (e : Nat) : EnvBlind (bufWriteIfOk e) := by
  intro s es ag
  by_cases h : s.locals.ok = true <;> simp [bufWriteIfOk, withEnv, h, bufWrite, record]
theorem envBlind_failIfNotOk : EnvBlind failIfNotOk := by
  intro s es ag
  by_cases h : s.locals.ok = true <;> simp [failIfNotOk, withEnv, h]
theorem envBlind_respond (st : Status) (d : Word) : EnvBlind (respond st d) := fun _ _ _ => rfl
theorem envBlind_respondVal : EnvBlind respondVal := fun _ _ _ => rfl
theorem envBlind_respondPass : EnvBlind respondPass := fun _ _ _ => rfl
theorem envBlind_advance : EnvBlind advance := by
  intro s es ag
  simp only [advance, withEnv]
  split <;> rfl

theorem envBlind_microStep {f : MicroStep} (h : EnvBlind f) : EnvBlind (microStep f) :=
  envBlind_comp (f := f) (g := advance) h envBlind_advance

theorem envBlind_runAlone {fs : List MicroStep} (h : ∀ f ∈ fs, EnvBlind f) : EnvBlind (runAlone fs) := by
  induction fs with
  | nil => exact fun _ _ _ => rfl
  | cons f fs ih =>
    exact envBlind_comp (f := microStep f) (g := runAlone fs) (envBlind_microStep (h f (by simp))) (ih fun g hg => h g (by simp [hg]))

/-- Such a micro-step leaves the build, the counters and the agenda to the environment (R91). -/
theorem EnvBlind.keeps {f : MicroStep} (h : EnvBlind f) (s : State) :
    (f s).encs = s.encs ∧ (f s).agenda = s.agenda := by
  have e : f s = withEnv (f s) s.encs s.agenda := by
    conv_lhs => rw [show s = withEnv s s.encs s.agenda from rfl, h]
  exact ⟨by rw [e]; rfl, by rw [e]; rfl⟩

theorem gap_eq_withEnv (s : State) : gap s = withEnv s (gap s).encs (gap s).agenda := rfl

theorem withEnv_withEnv (s : State) (es es' : Vector EncSlot 4) (ag ag' : List Move) :
    withEnv (withEnv s es ag) es' ag' = withEnv s es' ag' := rfl

/-- R91: a command whose micro-steps do not look at the counters ends as if it had run alone, and the
counters as if they had moved alone. -/
theorem runSteps_envBlind {fs : List MicroStep} (h : ∀ f ∈ fs, EnvBlind f)
    (hc : ∀ f ∈ fs, ∀ s, (f s).cfg = s.cfg) (s : State) :
    runSteps fs s = withEnv (runAlone fs s) (gaps fs.length s).encs (gaps fs.length s).agenda := by
  induction fs generalizing s with
  | nil => rfl
  | cons f fs ih =>
    have hf : EnvBlind (microStep f) := envBlind_microStep (h f (by simp))
    have hr : EnvBlind (runAlone fs) := envBlind_runAlone fun g hg => h g (by simp [hg])
    have e : microStep f (gap s) = withEnv (microStep f s) (gap s).encs (gap s).agenda := by
      conv_lhs => rw [gap_eq_withEnv, hf]
    rw [runSteps, ih (fun g hg => h g (by simp [hg])) (fun g hg => hc g (by simp [hg])), runAlone_cons]
    have g := gaps_congr fs.length (s := microStep f (gap s)) (t := gap s)
      (by rw [microStep, advance_cfg, hc f (by simp)]) (by rw [e]; rfl) (by rw [e]; rfl)
    rw [g.1, g.2, e, hr, withEnv_withEnv]
    rfl

end Sys2Proof.Machine
end

