-- ==== Sys2Proof/Laws/Env.lean ====
section
/-! SUPPORT. What the environment can do to one encoder slot (60_exceptions.md R203 to R205), said once. -/

namespace Sys2Proof.Machine

/-- `g` is what some moves of the environment do to slot `k` in build `c`: whatever they are, `UIE` and `ENC_RUN`
stay, a count in range stays in range, and a slot that is not configured and at reset stays at reset. -/
structure EnvFn (c : Config) (k : Nat) (g : EncSlot → EncSlot) : Prop where
  uie : ∀ e, (g e).uie = e.uie
  encRun : ∀ e, (g e).encRun = e.encRun
  range : ∀ e, e.cnt.toNat < c.modulus → (g e).cnt.toNat < c.modulus
  reset : encOk c k = false → g EncSlot.reset = EncSlot.reset

theorem envFn_id (c : Config) (k : Nat) : EnvFn c k id := ⟨fun _ => rfl, fun _ => rfl, fun _ h => h, fun _ => rfl⟩

theorem envFn_comp {c : Config} {k : Nat} {f g : EncSlot → EncSlot} (hf : EnvFn c k f) (hg : EnvFn c k g) :
    EnvFn c k (fun e => g (f e)) where
  uie e := by rw [hg.uie, hf.uie]
  encRun e := by rw [hg.encRun, hf.encRun]
  range e h := hg.range _ (hf.range e h)
  reset h := by rw [hf.reset h, hg.reset h]

/-- An event changes at most the accumulator (R164). -/
theorem accumulate_keeps (c : Config) (j : Nat) (f : Word → Word) (e : EncSlot) :
    accumulate c j f e = { e with ovf := (accumulate c j f e).ovf } := by
  unfold accumulate
  split <;> rfl

theorem accumulate_of_ok {c : Config} {j : Nat} (h : encOk c j = true) (f : Word → Word) (e : EncSlot) :
    accumulate c j f e = { e with ovf := f e.ovf } := by
  simp [accumulate, h]

theorem accumulate_of_not_ok {c : Config} {j : Nat} (h : encOk c j = false) (f : Word → Word) (e : EncSlot) :
    accumulate c j f e = e := by
  simp [accumulate, h]

theorem envFn_accumulate (c : Config) (j : Nat) (f : Word → Word) : EnvFn c j (accumulate c j f) where
  uie e := by rw [accumulate_keeps]
  encRun e := by rw [accumulate_keeps]
  range e h := by rw [accumulate_keeps]; exact h
  reset h := accumulate_of_not_ok h _ _

/-- A counted value is in range (R39, R203). -/
theorem countValue_lt {c : Config} (d : WrapDir) (cnt : Half) (h : 0 < c.modulus) :
    (countValue c d cnt).toNat < c.modulus := by
  cases d
  all_goals
    simp only [countValue, BitVec.toNat_ofNat]
    exact Nat.lt_of_le_of_lt (Nat.mod_le _ _) (Nat.mod_lt _ h)

/-- A count step writes the count, and on a wrap the pending flag and its direction (R203). -/
theorem countStep_keeps (c : Config) (d : WrapDir) (e : EncSlot) :
    countStep c d e =
      { e with cnt := countValue c d e.cnt, uif := (countStep c d e).uif, wrapDir := (countStep c d e).wrapDir } := by
  unfold countStep
  split <;> rfl

theorem envFn_count (c : Config) (k : Nat) (d : WrapDir) (p : EncSlot → Bool) :
    EnvFn c k (fun e => if (e.encRun && p e) = true then countStep c d e else e) where
  uie e := by split; · rw [countStep_keeps]
              · rfl
  encRun e := by split; · rw [countStep_keeps]
                 · rfl
  range e h := by
    split
    · rw [countStep_keeps]
      exact countValue_lt d e.cnt (by omega)
    · exact h
  reset _ := rfl

theorem envFn_countGuarded (c : Config) (k : Nat) (d : WrapDir) : EnvFn c k (countGuarded c d) :=
  envFn_count c k d fun e => !(wraps c d e && e.uif)

theorem envFn_countAnyway (c : Config) (k : Nat) (d : WrapDir) : EnvFn c k (countAnyway c d) := by
  have h : countAnyway c d = fun e => if (e.encRun && true) = true then countStep c d e else e := by
    funext e
    simp [countAnyway]
  rw [h]
  exact envFn_count c k d fun _ => true

theorem deliver_of_not {c : Config} {j : Nat} {e : EncSlot} (h : deliverable e = false) : deliver c j e = e := by
  simp [deliver, h]

/-- A delivery clears the flag, counts the wrap by its direction on a configured channel, and keeps the rest (R204). -/
theorem deliver_of {c : Config} {j : Nat} {e : EncSlot} (h : deliverable e = true) :
    deliver c j e =
      { e with uif := false,
               ovf := if encOk c j then (match e.wrapDir with | .up => e.ovf + 1 | .down => e.ovf - 1) else e.ovf } := by
  simp only [deliver, h, if_true, countUp, countDown, accumulate]
  cases e.wrapDir <;> cases encOk c j <;> rfl

/-- A delivery changes at most the flag and the accumulator (R204). -/
theorem envFn_deliver (c : Config) (j : Nat) : EnvFn c j (deliver c j) where
  uie e := by
    unfold deliver countUp countDown
    split
    · split <;> rw [accumulate_keeps]
    · rfl
  encRun e := by
    unfold deliver countUp countDown
    split
    · split <;> rw [accumulate_keeps]
    · rfl
  range e h := by
    unfold deliver countUp countDown
    split
    · split <;> (rw [accumulate_keeps]; exact h)
    · exact h
  reset _ := rfl

/-- A change of one entry, as a function of any entry. -/
theorem slotMap_envFn {c : Config} {j : Nat} {f : EncSlot → EncSlot} (hf : EnvFn c j f) (k : Nat) :
    ∃ g, EnvFn c k g ∧ ∀ es, slotAt EncSlot.reset (slotMap es f j) k = g (slotAt EncSlot.reset es k) := by
  by_cases h : k = j ∧ 1 ≤ j ∧ j ≤ 4
  · obtain ⟨rfl, -⟩ := id h
    exact ⟨f, hf, fun es => by rw [slotAt_slotMap, if_pos h]⟩
  · exact ⟨id, envFn_id c k, fun es => by rw [slotAt_slotMap, if_neg h]; rfl⟩

/-- What one move of the environment does to slot `k`. -/
theorem envMove_envFn (c : Config) (m : EnvMove) (k : Nat) :
    ∃ g, EnvFn c k g ∧ ∀ es, slotAt EncSlot.reset (envMove c m es) k = g (slotAt EncSlot.reset es k) := by
  cases m with
  | count j d => exact slotMap_envFn (envFn_countGuarded c j d) k
  | overrun j d => exact slotMap_envFn (envFn_countAnyway c j d) k
  | deliver j => exact slotMap_envFn (envFn_deliver c j) k
  | event w =>
    simp only [envMove, takeEventWord]
    cases h : decodeEvent w with
    | error _ => exact ⟨id, envFn_id c k, fun _ => rfl⟩
    | ok i =>
      rcases (decodeEvent_ok_iff w i).1 h with ⟨-, rfl⟩ | ⟨-, rfl⟩
      · exact slotMap_envFn (envFn_accumulate c _ _) k
      · exact slotMap_envFn (envFn_accumulate c _ _) k

/-- What the environment does to slot `k` between two micro-steps. -/
theorem gapEncs_envFn (c : Config) (l : List Move) (k : Nat) :
    ∃ g, EnvFn c k g ∧ ∀ es, slotAt EncSlot.reset (gapEncs c l es) k = g (slotAt EncSlot.reset es k) := by
  induction l with
  | nil => exact ⟨id, envFn_id c k, fun _ => rfl⟩
  | cons a l ih =>
    cases a with
    | env m =>
      obtain ⟨f, hf, ef⟩ := envMove_envFn c m k
      obtain ⟨g, hg, eg⟩ := ih
      exact ⟨_, envFn_comp hf hg, fun es => by rw [gapEncs, eg, ef]⟩
    | main => exact ⟨id, envFn_id c k, fun _ => rfl⟩
    | host _ => exact ⟨id, envFn_id c k, fun _ => rfl⟩

/-- What the environment does to slot `k` over `n` interleaving points. -/
theorem gaps_envFn (n : Nat) (s : State) (k : Nat) :
    ∃ g, EnvFn s.cfg k g ∧ (gaps n s).enc k = g (s.enc k) := by
  induction n generalizing s with
  | zero => exact ⟨id, envFn_id s.cfg k, rfl⟩
  | succ n ih =>
    obtain ⟨f, hf, ef⟩ := gapEncs_envFn s.cfg s.agenda k
    obtain ⟨g, hg, eg⟩ := ih (gap s)
    exact ⟨_, envFn_comp hf hg, by rw [gaps_succ, eg]; exact congrArg g (ef s.encs)⟩

end Sys2Proof.Machine
end

