-- ==== Sys2Proof/Laws/Commands.lean ====
section
/-! SUPPORT. What a micro-step of each component can be, what it may touch, and how a run of them ends. -/

namespace Sys2Proof.Machine

/-! ### The micro-steps of each component -/

/-- A micro-step of a MotorDriver command in build `c` (R131 to R138). -/
inductive MotorOp (c : Config) : MicroStep → Prop where
  | noChange : MotorOp c noChange
  | respond (st : Status) : MotorOp c (respond st 0)
  | respondVal : MotorOp c respondVal
  | delay (w : Wait) : MotorOp c (delay w)
  | setState (i : Nat) (st : Lifecycle) (h : motorOk c i = true) : MotorOp c (setState i st)
  | setStateByDir (i : Nat) (h : motorOk c i = true) : MotorOp c (setStateByDir i)
  | sleepPin (i : Nat) (v : Level) (h : motorOk c i = true) : MotorOp c (writePin (.sleep i) v)
  | offPin (i : Nat) (v : Level) (h : motorOk c i = true) : MotorOp c (writePin (.off i) v)
  | dirPin (i : Nat) (v : Level) (h : motorOk c i = true) : MotorOp c (writePin (.dir i) v)
  | wakePin (i : Nat) (v : Level) (st : Lifecycle) (h : motorOk c i = true) :
      MotorOp c (fun s => Machine.setState i st (writePin (.sleep i) v s))
  | startChannel (i : Nat) (h : motorOk c i = true) : MotorOp c (startChannel i)
  | writeDuty (i : Nat) (v : Half) (h : motorOk c i = true) (hv : v ≤ c.dutyLimit) : MotorOp c (writeDuty i v)
  | readPin (i : Nat) : MotorOp c (readPin (.status i))

/-- A micro-step of an Encoder command (R161 to R163). -/
inductive EncOp (c : Config) : MicroStep → Prop where
  | noChange : EncOp c noChange
  | respond (st : Status) : EncOp c (respond st 0)
  | respondVal : EncOp c respondVal
  | clearOverflowFlag (j : Nat) (h : encOk c j = true) : EncOp c (clearOverflowFlag j)
  | enableBaseInterrupt (j : Nat) (h : encOk c j = true) : EncOp c (enableBaseInterrupt j)
  | zero (j : Nat) (h : encOk c j = true) : EncOp c (fun s => clearOvf j (resetCounter j s))
  | startEncoderMode (j : Nat) (h : encOk c j = true) : EncOp c (startEncoderMode j)
  | readCounter (j : Nat) : EncOp c (readCounter j)
  | readPosition (j : Nat) : EncOp c (readPosition j)

/-- A micro-step of `CGETCUR` (R181). -/
inductive CurOp : MicroStep → Prop where
  | noChange : CurOp noChange
  | respond (st : Status) : CurOp (respond st 0)
  | clearFail : CurOp clearFail
  | startConversion : CurOp startConversion
  | poll : CurOp poll
  | readValueIfOk : CurOp readValueIfOk
  | bufWriteIfOk (e : Nat) : CurOp (bufWriteIfOk e)
  | failIfNotOk : CurOp failIfNotOk
  | respondPass : CurOp respondPass

theorem motorOp_wakeSteps {c : Config} {i : Nat} (h : motorOk c i = true) : ∀ f ∈ wakeSteps c i, MotorOp c f := by
  simp only [wakeSteps, brakeSteps, List.cons_append, List.nil_append, List.forall_mem_cons]
  exact ⟨.setState _ _ h, .wakePin _ _ _ h, .delay _, .sleepPin _ _ h, .delay _, .wakePin _ _ _ h,
    .startChannel _ h, .offPin _ _ h, .dirPin _ _ h, .writeDuty _ _ h (halfDuty_le c), .setState _ _ h,
    by simp⟩

theorem motorOp_minitSteps (c : Config) : ∀ f ∈ minitSteps c, MotorOp c f := by
  unfold minitSteps configError
  split
  · rename_i hn
    split
    · simp only [List.forall_mem_cons]
      exact ⟨.noChange, .respond _, by simp⟩
    · intro f h
      simp only [List.mem_append, List.mem_cons, List.not_mem_nil, or_false, or_self, List.mem_flatMap,
        List.mem_range] at h
      rcases h with (rfl | ⟨k, hk, h⟩) | rfl
      · exact .noChange
      · exact motorOp_wakeSteps (by simp [motorOk, hn]; omega) f h
      · exact .respond _
  · simp only [List.forall_mem_cons]
    exact ⟨.respond _, by simp⟩

/-- Every micro-step of a MotorDriver command is one of `MotorOp`. -/
theorem motorOp_of_mem {c : Config} {i : Instr} (hm : i.isMotor = true) : ∀ f ∈ instrSteps c i, MotorOp c f := by
  cases i <;> simp only [Instr.isMotor, Bool.false_eq_true] at hm
  case minit => exact motorOp_minitSteps c
  all_goals
    simp only [instrSteps, mstartSteps, msetdutySteps, mstopSteps, moffSteps, monSteps, mgetstateSteps,
      indexError, brakeSteps, List.cons_append, List.nil_append]
    split
    · rename_i h
      simp only [List.forall_mem_cons]
      repeat' apply And.intro
      all_goals first
        | exact .noChange
        | exact .writeDuty _ _ h (clamp_le _ _)
        | exact .delay _
        | exact .offPin _ _ h
        | exact .dirPin _ _ h
        | exact .setState _ _ h
        | exact .setStateByDir _ h
        | exact .readPin _
        | exact .respondVal
        | exact .respond _
        | simp
    · simp only [List.forall_mem_cons]
      exact ⟨.respond _, by simp⟩

theorem encOp_encInitSteps {c : Config} {j : Nat} (h : encOk c j = true) : ∀ f ∈ encInitSteps j, EncOp c f := by
  simp only [encInitSteps, List.forall_mem_cons]
  exact ⟨.clearOverflowFlag _ h, .enableBaseInterrupt _ h, .zero _ h, .startEncoderMode _ h, by simp⟩

theorem encOp_einitSteps (c : Config) : ∀ f ∈ einitSteps c, EncOp c f := by
  unfold einitSteps configError
  split
  · rename_i hn
    intro f h
    simp only [List.mem_append, List.mem_cons, List.not_mem_nil, or_false, List.mem_flatMap, List.mem_reverse,
      List.mem_range] at h
    rcases h with (rfl | ⟨k, hk, h⟩) | rfl
    · exact .noChange
    · exact encOp_encInitSteps (by simp [encOk, hn]; omega) f h
    · exact .respond _
  · simp only [List.forall_mem_cons]
    exact ⟨.respond _, by simp⟩

theorem encOp_egetcntSteps (c : Config) (j : Nat) : ∀ f ∈ egetcntSteps c j, EncOp c f := by
  unfold egetcntSteps indexError
  split
  · simp only [List.forall_mem_cons]
    exact ⟨.noChange, .readCounter _, .respondVal, by simp⟩
  · simp only [List.forall_mem_cons]
    exact ⟨.respond _, by simp⟩

theorem encOp_egetposSteps (c : Config) (j : Nat) : ∀ f ∈ egetposSteps c j, EncOp c f := by
  unfold egetposSteps indexError
  split
  · simp only [List.forall_mem_cons]
    exact ⟨.noChange, .readPosition _, .respondVal, by simp⟩
  · simp only [List.forall_mem_cons]
    exact ⟨.respond _, by simp⟩

theorem curOp_cgetcurSteps (c : Config) : ∀ f ∈ cgetcurSteps c, CurOp f := by
  unfold cgetcurSteps configError
  split
  · split
    · simp only [List.forall_mem_cons]
      exact ⟨.noChange, .respond _, by simp⟩
    · intro f h
      simp only [sampleSteps, List.mem_append, List.mem_cons, List.not_mem_nil, or_false, List.mem_flatMap,
        or_self_left] at h
      rcases h with ((rfl | rfl) | ⟨k, -, rfl | rfl | rfl | rfl | rfl⟩) | rfl
      exacts [.noChange, .clearFail, .startConversion, .poll, .readValueIfOk, .bufWriteIfOk _, .failIfNotOk,
        .respondPass]
  · simp only [List.forall_mem_cons]
    exact ⟨.respond _, by simp⟩

/-- A micro-step of any command is one of its component's; an event has none. -/
theorem op_of_mem {c : Config} {i : Instr} {f : MicroStep} (h : f ∈ instrSteps c i) :
    (i.isMotor = true ∧ MotorOp c f) ∨ EncOp c f ∨ (i = .cgetcur ∧ CurOp f) := by
  cases i with
  | einit => exact .inr (.inl (encOp_einitSteps c f h))
  | egetcnt j => exact .inr (.inl (encOp_egetcntSteps c j f h))
  | egetpos j => exact .inr (.inl (encOp_egetposSteps c j f h))
  | cgetcur => exact .inr (.inr ⟨rfl, curOp_cgetcurSteps c f h⟩)
  | evtOvf j => simp [instrSteps] at h
  | evtUdf j => simp [instrSteps] at h
  | _ => exact .inl ⟨rfl, motorOp_of_mem rfl f h⟩

/-- A micro-step of any word, a reserved one included, is one of some component's. -/
theorem op_of_mem_word {c : Config} {w : Word} {f : MicroStep} (h : f ∈ wordSteps c w) :
    MotorOp c f ∨ EncOp c f ∨ CurOp f := by
  unfold wordSteps at h
  split at h
  · rcases op_of_mem h with h | h | h
    exacts [.inl h.2, .inr (.inl h), .inr (.inr h.2)]
  · simp only [illegalSteps, List.mem_cons, List.not_mem_nil, or_false] at h
    subst h
    exact .inl (.respond _)

/-! ### What they touch -/

/-- A MotorDriver micro-step neither reads nor writes the counters (R91). -/
theorem motorOp_blind {c : Config} {f : MicroStep} (h : MotorOp c f) : EnvBlind f := by
  cases h with
  | noChange => exact envBlind_noChange
  | respond st => exact envBlind_respond st 0
  | respondVal => exact envBlind_respondVal
  | delay w => exact envBlind_delay w
  | setState i st _ => exact envBlind_setState i st
  | setStateByDir i _ => exact envBlind_setStateByDir i
  | sleepPin i v _ => exact envBlind_writePin _ v
  | offPin i v _ => exact envBlind_writePin _ v
  | dirPin i v _ => exact envBlind_writePin _ v
  | wakePin i v st _ =>
    exact envBlind_comp (f := writePin (.sleep i) v) (g := setState i st) (envBlind_writePin _ v) (envBlind_setState i st)
  | startChannel i _ => exact envBlind_startChannel i
  | writeDuty i v _ _ => exact envBlind_writeDuty i v
  | readPin i => exact envBlind_readPin _

/-- A micro-step of `CGETCUR` neither reads nor writes the counters (R91). -/
theorem curOp_blind {f : MicroStep} (h : CurOp f) : EnvBlind f := by
  cases h with
  | noChange => exact envBlind_noChange
  | respond st => exact envBlind_respond st 0
  | clearFail => exact envBlind_clearFail
  | startConversion => exact envBlind_startConversion
  | poll => exact envBlind_poll
  | readValueIfOk => exact envBlind_readValueIfOk
  | bufWriteIfOk e => exact envBlind_bufWriteIfOk e
  | failIfNotOk => exact envBlind_failIfNotOk
  | respondPass => exact envBlind_respondPass

/-- A MotorDriver micro-step leaves the build, the buffer and the agenda (R52). -/
theorem motorOp_keeps {c : Config} {f : MicroStep} (h : MotorOp c f) (s : State) :
    (f s).cfg = s.cfg ∧ (f s).curbuf = s.curbuf ∧ (f s).agenda = s.agenda := by
  cases h <;> exact ⟨rfl, rfl, rfl⟩

/-- An Encoder micro-step leaves the build, the motor slots, the buffer, the agenda and the draws (R52). -/
theorem encOp_keeps {c : Config} {f : MicroStep} (h : EncOp c f) (s : State) :
    (f s).cfg = s.cfg ∧ (f s).motors = s.motors ∧ (f s).curbuf = s.curbuf ∧ (f s).agenda = s.agenda := by
  cases h <;> exact ⟨rfl, rfl, rfl, rfl⟩

/-- A micro-step of `CGETCUR` leaves the build, the motor slots, the agenda (R52). -/
theorem curOp_keeps {f : MicroStep} (h : CurOp f) (s : State) :
    (f s).cfg = s.cfg ∧ (f s).motors = s.motors ∧ (f s).agenda = s.agenda := by
  cases h with
  | readValueIfOk =>
    unfold readValueIfOk
    split <;> exact ⟨rfl, rfl, rfl⟩
  | bufWriteIfOk e =>
    unfold bufWriteIfOk
    split <;> exact ⟨rfl, rfl, rfl⟩
  | failIfNotOk =>
    unfold failIfNotOk
    split <;> exact ⟨rfl, rfl, rfl⟩
  | _ => exact ⟨rfl, rfl, rfl⟩

/-- No micro-step of a command changes the build or takes a move off the agenda. -/
theorem instrSteps_keeps {c : Config} {i : Instr} {f : MicroStep} (h : f ∈ instrSteps c i) (s : State) :
    (f s).cfg = s.cfg ∧ (f s).agenda = s.agenda := by
  rcases op_of_mem h with ⟨-, h⟩ | h | ⟨-, h⟩
  · exact ⟨(motorOp_keeps h s).1, (motorOp_keeps h s).2.2⟩
  · exact ⟨(encOp_keeps h s).1, (encOp_keeps h s).2.2.2⟩
  · exact ⟨(curOp_keeps h s).1, (curOp_keeps h s).2.2⟩

/-! ### Runs of micro-steps -/

/-- A property of states that the environment keeps and every micro-step of a list keeps, a run of the list
keeps. -/
theorem runSteps_inv {P : State → Prop} {fs : List MicroStep} (hg : ∀ s, P s → P (gap s))
    (hf : ∀ f ∈ fs, ∀ s, P s → P (microStep f s)) {s : State} (h : P s) : P (runSteps fs s) := by
  induction fs generalizing s with
  | nil => exact h
  | cons f fs ih => exact ih (fun g hg => hf g (by simp [hg])) (hf f (by simp) _ (hg _ h))

/-- A command that fails its first test (R130, R191). -/
theorem runSteps_respond (st : Status) (d : Word) (s : State) :
    runSteps [respond st d] s = answered 1 s ⟨st, d⟩ [] := by
  simp [runSteps, answered, gaps, microStep, advance, respond, gap]

/-- A command that fails its second test (R131, R181). -/
theorem runSteps_noChange_respond (st : Status) (d : Word) (s : State) :
    runSteps [noChange, respond st d] s = answered 2 s ⟨st, d⟩ [] := by
  simp only [runSteps, answered, gaps, microStep, advance, respond, gap, noChange]
  cases s.seq <;> simp

theorem microStep_encs (f : MicroStep) (s : State) : (microStep f s).encs = (f s).encs := advance_encs _

theorem microStep_agenda (f : MicroStep) (s : State) : (microStep f s).agenda = (f s).agenda := advance_agenda _

/-- What is left of the agenda depends on the agenda only. -/
theorem gaps_agenda_congr (n : Nat) {s t : State} (h : s.agenda = t.agenda) :
    (gaps n s).agenda = (gaps n t).agenda := by
  induction n generalizing s t with
  | zero => exact h
  | succ n ih => exact ih (by simp [h])

/-- A run takes off the agenda what its interleaving points take. -/
theorem runSteps_agenda {fs : List MicroStep} (hf : ∀ f ∈ fs, ∀ s, (f s).agenda = s.agenda) (s : State) :
    (runSteps fs s).agenda = (gaps fs.length s).agenda := by
  induction fs generalizing s with
  | nil => rfl
  | cons f fs ih =>
    rw [runSteps, ih fun g hg => hf g (by simp [hg]), List.length_cons, gaps_succ]
    exact gaps_agenda_congr _ (by rw [microStep_agenda, hf f (by simp)])

/-- A run whose micro-steps do not write slot `k` leaves it to the environment. -/
theorem runSteps_slot {fs : List MicroStep} (k : Nat)
    (hf : ∀ f ∈ fs, ∀ s, (f s).cfg = s.cfg ∧ (f s).agenda = s.agenda ∧ (f s).enc k = s.enc k) {s t : State}
    (hc : s.cfg = t.cfg) (ha : s.agenda = t.agenda) (he : s.enc k = t.enc k) :
    (runSteps fs s).enc k = (gaps fs.length t).enc k := by
  induction fs generalizing s t with
  | nil => exact he
  | cons f fs ih =>
    obtain ⟨h1, h2, h3⟩ := hf f (by simp) (gap s)
    rw [runSteps, List.length_cons, gaps_succ]
    apply ih fun g hg => hf g (by simp [hg])
    · rw [microStep, advance_cfg, h1, gap_cfg, gap_cfg, hc]
    · rw [microStep_agenda, h2, gap_agenda, gap_agenda, ha]
    · have e : (microStep f (gap s)).enc k = (f (gap s)).enc k := by simp [microStep, State.enc]
      obtain ⟨g, -, hg⟩ := gapEncs_envFn s.cfg s.agenda k
      rw [e, h3]
      simp only [State.enc, gap_encs, hg] at he ⊢
      rw [he, ← hg, hc, ha]

/-- Micro-steps that leave the counters to the environment: the run ends with what the interleaving points give
(R91). -/
theorem runSteps_encs {fs : List MicroStep}
    (hf : ∀ f ∈ fs, ∀ s, (f s).cfg = s.cfg ∧ (f s).agenda = s.agenda ∧ (f s).encs = s.encs) (s : State) :
    (runSteps fs s).encs = (gaps fs.length s).encs ∧ (runSteps fs s).agenda = (gaps fs.length s).agenda := by
  induction fs generalizing s with
  | nil => exact ⟨rfl, rfl⟩
  | cons f fs ih =>
    obtain ⟨h1, h2, h3⟩ := hf f (by simp) (gap s)
    obtain ⟨i1, i2⟩ := ih (fun g hg => hf g (by simp [hg])) (microStep f (gap s))
    have e := gaps_congr fs.length (s := microStep f (gap s)) (t := gap s)
      (by rw [microStep, advance_cfg, h1]) (by rw [microStep_encs, h3]) (by rw [microStep_agenda, h2])
    exact ⟨i1.trans e.1, i2.trans e.2⟩

/-! ### Lengths -/

theorem length_wakeSteps (c : Config) (i : Nat) : (wakeSteps c i).length = 11 := rfl

theorem length_encInitSteps (j : Nat) : (encInitSteps j).length = 4 := rfl

theorem length_sampleSteps (k : Nat) : (sampleSteps k).length = 5 := rfl

/-- A loop of `n` rounds of `m` micro-steps each. -/
theorem length_flatMap_const {f : Nat → List MicroStep} {m : Nat} (h : ∀ k, (f k).length = m) (l : List Nat) :
    (l.flatMap f).length = m * l.length := by
  induction l with
  | nil => rfl
  | cons a l ih => rw [List.flatMap_cons, List.length_append, ih, h, List.length_cons, Nat.mul_succ, Nat.add_comm]

/-! ### The shape of a command: micro-steps that leave the sequencer busy, and one that responds -/

/-- A micro-step before the last: `SEQ` and the response port stay as they are. -/
def KeepsSeq (f : MicroStep) : Prop := ∀ s, (f s).seq = s.seq ∧ (f s).responses = s.responses

/-- The last micro-step: the sequencer is idle, no value of the command is left, one response is presented (R23). -/
def Responds (f : MicroStep) : Prop :=
  ∀ s, (f s).seq = .idle ∧ (f s).locals = Locals.reset ∧ ∃ r, (f s).responses = s.responses ++ [r]

theorem responds_respond (st : Status) (d : Word) : Responds (respond st d) := fun _ => ⟨rfl, rfl, _, rfl⟩
theorem responds_respondVal : Responds respondVal := fun _ => ⟨rfl, rfl, _, rfl⟩
theorem responds_respondPass : Responds respondPass := fun _ => ⟨rfl, rfl, _, rfl⟩

/-- Two operations in one micro-step keep the sequencer as it is if each does. -/
theorem KeepsSeq.comp {f g : MicroStep} (hf : KeepsSeq f) (hg : KeepsSeq g) : KeepsSeq fun s => g (f s) :=
  fun s => ⟨(hg (f s)).1.trans (hf s).1, (hg (f s)).2.trans (hf s).2⟩

@[simp] theorem keepsSeq_noChange : KeepsSeq noChange := fun _ => ⟨rfl, rfl⟩
@[simp] theorem keepsSeq_setState (i : Nat) (st : Lifecycle) : KeepsSeq (setState i st) := fun _ => ⟨rfl, rfl⟩
@[simp] theorem keepsSeq_setStateByDir (i : Nat) : KeepsSeq (setStateByDir i) := fun _ => ⟨rfl, rfl⟩
@[simp] theorem keepsSeq_writePin (p : Pin) (v : Level) : KeepsSeq (writePin p v) := by
  cases p <;> exact fun _ => ⟨rfl, rfl⟩
@[simp] theorem keepsSeq_readPin (p : Pin) : KeepsSeq (readPin p) := fun _ => ⟨rfl, rfl⟩
@[simp] theorem keepsSeq_startChannel (i : Nat) : KeepsSeq (startChannel i) := fun _ => ⟨rfl, rfl⟩
@[simp] theorem keepsSeq_writeDuty (i : Nat) (v : Half) : KeepsSeq (writeDuty i v) := fun _ => ⟨rfl, rfl⟩
@[simp] theorem keepsSeq_delay (w : Wait) : KeepsSeq (delay w) := fun _ => ⟨rfl, rfl⟩
@[simp] theorem keepsSeq_clearOverflowFlag (j : Nat) : KeepsSeq (clearOverflowFlag j) := fun _ => ⟨rfl, rfl⟩
@[simp] theorem keepsSeq_enableBaseInterrupt (j : Nat) : KeepsSeq (enableBaseInterrupt j) := fun _ => ⟨rfl, rfl⟩
@[simp] theorem keepsSeq_resetCounter (j : Nat) : KeepsSeq (resetCounter j) := fun _ => ⟨rfl, rfl⟩
@[simp] theorem keepsSeq_clearOvf (j : Nat) : KeepsSeq (clearOvf j) := fun _ => ⟨rfl, rfl⟩
@[simp] theorem keepsSeq_startEncoderMode (j : Nat) : KeepsSeq (startEncoderMode j) := fun _ => ⟨rfl, rfl⟩
@[simp] theorem keepsSeq_readCounter (j : Nat) : KeepsSeq (readCounter j) := fun _ => ⟨rfl, rfl⟩
@[simp] theorem keepsSeq_readPosition (j : Nat) : KeepsSeq (readPosition j) := fun _ => ⟨rfl, rfl⟩
@[simp] theorem keepsSeq_clearFail : KeepsSeq clearFail := fun _ => ⟨rfl, rfl⟩
@[simp] theorem keepsSeq_startConversion : KeepsSeq startConversion := fun _ => ⟨rfl, rfl⟩
@[simp] theorem keepsSeq_poll : KeepsSeq poll := fun _ => ⟨rfl, rfl⟩
@[simp] theorem keepsSeq_readValueIfOk : KeepsSeq readValueIfOk := fun s => by
  unfold readValueIfOk
  split <;> exact ⟨rfl, rfl⟩
@[simp] theorem keepsSeq_bufWriteIfOk (e : Nat) : KeepsSeq (bufWriteIfOk e) := fun s => by
  unfold bufWriteIfOk
  split <;> exact ⟨rfl, rfl⟩
@[simp] theorem keepsSeq_failIfNotOk : KeepsSeq failIfNotOk := fun s => by
  unfold failIfNotOk
  split <;> exact ⟨rfl, rfl⟩

theorem keepsSeq_sampleSteps (k : Nat) : ∀ f ∈ sampleSteps k, KeepsSeq f := by simp [sampleSteps]

theorem keepsSeq_wakeSteps (c : Config) (i : Nat) : ∀ f ∈ wakeSteps c i, KeepsSeq f := by
  have pinThenState : ∀ st v, KeepsSeq fun s => setState i st (writePin (.sleep i) v s) := fun st v =>
    (keepsSeq_writePin _ v).comp (keepsSeq_setState i st)
  simp [wakeSteps, brakeSteps, pinThenState]

theorem keepsSeq_encInitSteps (j : Nat) : ∀ f ∈ encInitSteps j, KeepsSeq f := by
  have zeroBoth : KeepsSeq fun s => clearOvf j (resetCounter j s) :=
    (keepsSeq_resetCounter j).comp (keepsSeq_clearOvf j)
  simp [encInitSteps, zeroBoth]

/-- Every command is some micro-steps that keep the sequencer busy and a last one that responds. -/
theorem instrSteps_shape (c : Config) {i : Instr} (h : i.isEvent = false) :
    ∃ fs f, instrSteps c i = fs ++ [f] ∧ (∀ g ∈ fs, KeepsSeq g) ∧ Responds f := by
  have one : ∀ st, ∃ fs f, [respond st 0] = fs ++ [f] ∧ (∀ g ∈ fs, KeepsSeq g) ∧ Responds f :=
    fun st => ⟨[], _, rfl, by simp, responds_respond st 0⟩
  have two : ∀ st, ∃ fs f, [noChange, respond st 0] = fs ++ [f] ∧ (∀ g ∈ fs, KeepsSeq g) ∧ Responds f :=
    fun st => ⟨[noChange], _, rfl, by simp [KeepsSeq, noChange], responds_respond st 0⟩
  cases i with
  | evtOvf j => simp [Instr.isEvent] at h
  | evtUdf j => simp [Instr.isEvent] at h
  | minit =>
    simp only [instrSteps, minitSteps, configError]
    split
    · split
      · exact two _
      · refine ⟨_, _, rfl, ?_, responds_respond _ _⟩
        intro g hg
        simp only [List.mem_append, List.mem_cons, List.not_mem_nil, or_false, or_self, List.mem_flatMap] at hg
        rcases hg with rfl | ⟨k, -, hg⟩
        · exact keepsSeq_noChange
        · exact keepsSeq_wakeSteps c _ g hg
    · exact one _
  | einit =>
    simp only [instrSteps, einitSteps, configError]
    split
    · refine ⟨_, _, rfl, ?_, responds_respond _ _⟩
      intro g hg
      simp only [List.mem_append, List.mem_cons, List.not_mem_nil, or_false, List.mem_flatMap] at hg
      rcases hg with rfl | ⟨k, -, hg⟩
      · exact keepsSeq_noChange
      · exact keepsSeq_encInitSteps _ g hg
    · exact one _
  | cgetcur =>
    simp only [instrSteps, cgetcurSteps, configError]
    split
    · split
      · exact two _
      · refine ⟨_, _, rfl, ?_, responds_respondPass⟩
        intro g hg
        simp only [List.mem_append, List.mem_cons, List.not_mem_nil, or_false, List.mem_flatMap] at hg
        rcases hg with (rfl | rfl | rfl) | ⟨k, -, hg⟩
        · exact keepsSeq_noChange
        · exact keepsSeq_noChange
        · exact keepsSeq_clearFail
        · exact keepsSeq_sampleSteps _ g hg
    · exact one _
  | mstart i d =>
    simp only [instrSteps, mstartSteps, indexError]
    split
    · exact ⟨[noChange, noChange, writeDuty i (clamp c d), delay .settle, writePin (.off i) 0, writePin (.dir i) 1,
        setState i .running], _, rfl, by simp, responds_respond _ _⟩
    · exact one _
  | msetduty i d =>
    simp only [instrSteps, msetdutySteps, indexError]
    split
    · exact ⟨[noChange, writeDuty i (clamp c d)], _, rfl, by simp, responds_respond _ _⟩
    · exact one _
  | mstop i d =>
    simp only [instrSteps, mstopSteps, indexError]
    split
    · exact ⟨noChange :: brakeSteps i (clamp c d), _, rfl, by simp [brakeSteps], responds_respond _ _⟩
    · exact one _
  | moff i =>
    simp only [instrSteps, moffSteps, indexError]
    split
    · exact ⟨[noChange, writePin (.off i) 1, setState i .off], _, rfl, by simp, responds_respond _ _⟩
    · exact one _
  | mon i =>
    simp only [instrSteps, monSteps, indexError]
    split
    · exact ⟨[noChange, writePin (.off i) 0, setStateByDir i], _, rfl, by simp, responds_respond _ _⟩
    · exact one _
  | mgetstate i =>
    simp only [instrSteps, mgetstateSteps, indexError]
    split
    · exact ⟨[noChange, readPin (.status i)], _, rfl, by simp, responds_respondVal⟩
    · exact one _
  | egetcnt j =>
    simp only [instrSteps, egetcntSteps, indexError]
    split
    · exact ⟨[noChange, readCounter j], _, rfl, by simp, responds_respondVal⟩
    · exact one _
  | egetpos j =>
    simp only [instrSteps, egetposSteps, indexError]
    split
    · exact ⟨[noChange, readPosition j], _, rfl, by simp, responds_respondVal⟩
    · exact one _

end Sys2Proof.Machine
end

