-- ==== Sys2Proof/Laws/PerInstr.lean ====
section
/-! SUPPORT. One lemma per instruction: its encoding matches its own row of the opcode table (30_encoding.md R109). -/

namespace Sys2Proof.Laws.EncodesToRow

/-- The bits of a word that its row's mask keeps: `OPC` of a command word, `KIND` of an event word (R109). -/
def masked : PortWord → PortWord
  | .cmd32 c => .cmd32 (c &&& 0xFF000000)
  | .evt8 e => .evt8 (e &&& 0xF0)

/-- The `match` column of the table (R109). -/
def rowMatch : Instr → PortWord
  | .minit => .cmd32 0x01000000
  | .mstart _ _ => .cmd32 0x02000000
  | .msetduty _ _ => .cmd32 0x03000000
  | .mstop _ _ => .cmd32 0x04000000
  | .moff _ => .cmd32 0x05000000
  | .mon _ => .cmd32 0x06000000
  | .mgetstate _ => .cmd32 0x07000000
  | .einit => .cmd32 0x10000000
  | .egetcnt _ => .cmd32 0x11000000
  | .egetpos _ => .cmd32 0x12000000
  | .cgetcur => .cmd32 0x20000000
  | .evtOvf _ => .evt8 0x10
  | .evtUdf _ => .evt8 0x20

/-- The word of `i`, under its row's mask, is its row's match, whatever the operands. -/
def Statement (i : Instr) : Prop := masked (encode i) = rowMatch i

theorem mask_commandWord (o : BitVec 8) (i : Nat) (d : Half) :
    commandWord o i d &&& 0xFF000000 = commandWord o 0 0 := by
  apply BitVec.eq_of_getLsbD_eq
  intro k hk
  rw [BitVec.getLsbD_and]
  simp only [commandWord]
  change (BitVec.getLsbD (w := 8 + 8 + 16) (o ++ BitVec.ofNat 8 i ++ d) k && _) =
    BitVec.getLsbD (w := 8 + 8 + 16) (o ++ BitVec.ofNat 8 0 ++ 0#16) k
  rw [BitVec.getLsbD_append, BitVec.getLsbD_append, BitVec.getLsbD_append, BitVec.getLsbD_append]
  have h : BitVec.getLsbD (0xFF000000 : Word) k = decide (24 ≤ k) := by
    revert k
    decide
  rw [h]
  by_cases h1 : k < 16
  · simp [h1, show ¬ 24 ≤ k by omega]
  · by_cases h2 : k - 16 < 8
    · simp [h1, h2, show ¬ 24 ≤ k by omega]
    · simp [h1, h2, show 24 ≤ k by omega]

theorem mask_eventWord (o : BitVec 4) (i : Nat) : eventWord o i &&& 0xF0 = eventWord o 0 := by
  apply BitVec.eq_of_getLsbD_eq
  intro k hk
  rw [BitVec.getLsbD_and]
  simp only [eventWord]
  change (BitVec.getLsbD (w := 4 + 4) (o ++ BitVec.ofNat 4 i) k && _) =
    BitVec.getLsbD (w := 4 + 4) (o ++ BitVec.ofNat 4 0) k
  rw [BitVec.getLsbD_append, BitVec.getLsbD_append]
  have h : BitVec.getLsbD (0xF0 : BitVec 8) k = decide (4 ≤ k) := by
    revert k
    decide
  rw [h]
  by_cases h1 : k < 4
  · simp [h1, show ¬ 4 ≤ k by omega]
  · simp [h1, show 4 ≤ k by omega]

theorem statement_of_command {i : Instr} {o : BitVec 8} {x : Nat} {d : Half}
    (h : encode i = .cmd32 (commandWord o x d)) (hm : rowMatch i = .cmd32 (commandWord o 0 0)) : Statement i := by
  rw [Statement, h, hm, masked, mask_commandWord]

theorem statement_of_event {i : Instr} {o : BitVec 4} {x : Nat}
    (h : encode i = .evt8 (eventWord o x)) (hm : rowMatch i = .evt8 (eventWord o 0)) : Statement i := by
  rw [Statement, h, hm, masked, mask_eventWord]

theorem minit : Statement .minit := statement_of_command rfl rfl
theorem mstart (i : Nat) (d : Half) : Statement (.mstart i d) := statement_of_command rfl rfl
theorem msetduty (i : Nat) (d : Half) : Statement (.msetduty i d) := statement_of_command rfl rfl
theorem mstop (i : Nat) (d : Half) : Statement (.mstop i d) := statement_of_command rfl rfl
theorem moff (i : Nat) : Statement (.moff i) := statement_of_command rfl rfl
theorem mon (i : Nat) : Statement (.mon i) := statement_of_command rfl rfl
theorem mgetstate (i : Nat) : Statement (.mgetstate i) := statement_of_command rfl rfl
theorem einit : Statement .einit := statement_of_command rfl rfl
theorem egetcnt (j : Nat) : Statement (.egetcnt j) := statement_of_command rfl rfl
theorem egetpos (j : Nat) : Statement (.egetpos j) := statement_of_command rfl rfl
theorem cgetcur : Statement .cgetcur := statement_of_command rfl rfl
theorem evtOvf (j : Nat) : Statement (.evtOvf j) := statement_of_event rfl rfl
theorem evtUdf (j : Nat) : Statement (.evtUdf j) := statement_of_event rfl rfl

end Sys2Proof.Laws.EncodesToRow
end

