-- ==== Sys2Proof/Laws/Step.lean ====
section
/-! SUPPORT. What a step can be, once for each shape of the agenda, and the one induction every invariant of the
machine goes through. -/

namespace Sys2Proof.Machine

/-- A command is the run of its micro-steps. -/
theorem exec_command {i : Instr} (h : i.isEvent = false) (s : State) :
    exec i s = .next (runSteps (instrSteps s.cfg i) s) := by
  cases i
  all_goals first
    | rfl
    | simp [Instr.isEvent] at h

theorem wordSteps_of_ok {c : Config} {w : Word} {i : Instr} (h : decodeCommand w = .ok i) :
    wordSteps c w = instrSteps c i := by
  simp [wordSteps, h]

theorem wordSteps_of_error {c : Config} {w : Word} {e : DecodeError} (h : decodeCommand w = .error e) :
    wordSteps c w = illegalSteps := by
  simp [wordSteps, h]

/-- So is every word, a reserved one included. -/
theorem wordSteps_shape (c : Config) (w : Word) :
    ∃ fs f, wordSteps c w = fs ++ [f] ∧ (∀ g ∈ fs, KeepsSeq g) ∧ Responds f := by
  cases h : decodeCommand w with
  | error e =>
    rw [wordSteps_of_error h]
    exact ⟨[], _, rfl, by simp, responds_respond _ _⟩
  | ok i =>
    rw [wordSteps_of_ok h]
    exact instrSteps_shape c (decode_isEvent.1 w h)

/-- A move of the environment, an event word included, is taken at any time (R90). -/
theorem step_env {s : State} {m : EnvMove} {rest : List Move} (h : s.agenda = .env m :: rest) :
    step s = .next { s with encs := envMove s.cfg m s.encs, agenda := rest } := by
  cases m with
  | event e =>
    simp only [step, fetch, h]
    cases hd : decodeEvent e with
    | error r => simp [decode, hd, runReserved, envMove, takeEventWord]
    | ok i =>
      rcases (decodeEvent_ok_iff e i).1 hd with ⟨-, rfl⟩ | ⟨-, rfl⟩ <;>
        simp [decode, hd, exec, execEvtOvf, execEvtUdf, envMove, takeEventWord]
  | _ => simp [step, fetch, h, otherMove]

/-- A command word at an idle core is run to its response, a reserved one included (R45, R110). -/
theorem step_issue {s : State} {c : Word} {rest : List Move} (hs : s.seq = .idle)
    (h : s.agenda = .host (.issue c) :: rest) :
    step s = .next (runSteps (wordSteps s.cfg c) (accept c { s with agenda := rest })) := by
  simp only [step, fetch, h, hs, if_true]
  cases hd : decodeCommand c with
  | error r => simp [decode, hd, runReserved, wordSteps_of_error hd]
  | ok i => simp [decode, hd, exec_command (decode_isEvent.1 c hd), wordSteps_of_ok hd]

/-- Another host move at an idle core (R206). -/
theorem step_host {s : State} {m : HostMove} {rest : List Move} (hs : s.seq = .idle)
    (h : s.agenda = .host m :: rest) (hm : ∀ c, m ≠ .issue c) :
    step s = .next (hostMove m { s with agenda := rest }) := by
  cases m with
  | issue c => exact absurd rfl (hm c)
  | _ => simp [step, fetch, h, otherMove, hs]

/-- The main line's move. -/
theorem step_main {s : State} {rest : List Move} (h : s.agenda = .main :: rest) :
    step s = mainMove { s with agenda := rest } := by
  simp [step, fetch, h, otherMove]

/-- A busy core goes on where only the host could move (U9), or nobody. -/
theorem step_busy {s : State} (hs : s.seq ≠ .idle)
    (h : s.agenda = [] ∨ ∃ m rest, s.agenda = .host m :: rest) : step s = mainMove s := by
  rcases h with h | ⟨m, rest, h⟩
  · simp [step, fetch, h, otherMove, hs]
  · cases m <;> simp [step, fetch, h, otherMove, hs]

/-- An idle core with nothing on the agenda settles (R204, R231). -/
theorem step_settle {s : State} (hs : s.seq = .idle) (h : s.agenda = []) : step s = .next (settle s) := by
  simp [step, fetch, h, otherMove, hs]

/-- What settling can be: nothing where no event is pending and enabled, else the delivery of one that is (R204). -/
theorem settle_cases (s : State) :
    (settle s = s ∧ ∀ j, deliverable (s.enc j) = false) ∨
    ∃ j, 1 ≤ j ∧ j ≤ 4 ∧ deliverable (s.enc j) = true ∧
      settle s = { s with encs := slotMap s.encs (deliver s.cfg j) j } := by
  unfold settle
  split
  · rename_i j h
    have hm := List.mem_of_find?_eq_some h
    have hd := List.find?_some h
    simp only [List.mem_cons, List.not_mem_nil, or_false] at hm
    exact .inr ⟨j, by omega, by omega, hd, rfl⟩
  · rename_i h
    refine .inl ⟨rfl, fun j => ?_⟩
    by_cases hj : j ∈ [1, 2, 3, 4]
    · simpa using List.find?_eq_none.1 h j hj
    · simp only [List.mem_cons, List.not_mem_nil, or_false] at hj
      rw [State.enc, slotAt_outside (by omega)]
      rfl

theorem mem_of_stepNumber {fs : List MicroStep} {k : Nat} {f : MicroStep} (h : stepNumber fs k = some f) :
    f ∈ fs := by
  cases k with
  | zero => simp [stepNumber] at h
  | succ k => exact List.mem_of_getElem? h

/-- What a property of states must survive for every step to keep it: the agenda moving on, a word being accepted at
an idle core and run, another host move, a move of the environment, and a micro-step of the running command. -/
theorem step_keeps {P : State → Prop}
    (agenda : ∀ s a, P s → P { s with agenda := a })
    (accepted : ∀ s c, s.seq = .idle → P s → P (accept c s))
    (written : ∀ s b, P s → P { s with curbuf := b })
    (moved : ∀ s m, P s → P { s with encs := envMove s.cfg m s.encs })
    (ran : ∀ s w, s.seq = .busy w 1 → P s → P (runSteps (wordSteps s.cfg w) s))
    (microStepped : ∀ s w k f, s.seq = .busy w k → stepNumber (wordSteps s.cfg w) k = some f → P s →
      P (microStep f s))
    {s t : State} (h : P s) (hs : step s = .next t) : P t := by
  have hmain : ∀ s, P s → mainMove s = .next t → P t := by
    intro s h ht
    unfold mainMove at ht
    split at ht
    · cases ht
      exact h
    · split at ht
      · cases ht
        exact microStepped _ _ _ _ (by assumption) (by assumption) h
      · cases ht
  by_cases hi : s.seq = .idle
  · cases ha : s.agenda with
    | nil =>
      rw [step_settle hi ha] at hs
      cases hs
      unfold settle
      split
      · exact moved _ _ h
      · exact h
    | cons a rest =>
      cases a with
      | main =>
        rw [step_main ha] at hs
        exact hmain _ (agenda _ _ h) hs
      | env m =>
        rw [step_env ha] at hs
        cases hs
        exact agenda _ _ (moved _ _ h)
      | host m =>
        cases m with
        | issue c =>
          rw [step_issue hi ha] at hs
          cases hs
          exact ran _ c rfl (accepted { s with agenda := rest } c hi (agenda _ _ h))
        | issueStepped c =>
          rw [step_host hi ha (by simp)] at hs
          cases hs
          exact accepted { s with agenda := rest } c hi (agenda _ _ h)
        | write e v =>
          rw [step_host hi ha (by simp)] at hs
          cases hs
          exact written _ _ (agenda _ _ h)
  · cases ha : s.agenda with
    | nil => exact hmain _ h (step_busy hi (.inl ha) ▸ hs)
    | cons a rest =>
      cases a with
      | main =>
        rw [step_main ha] at hs
        exact hmain _ (agenda _ _ h) hs
      | env m =>
        rw [step_env ha] at hs
        cases hs
        exact agenda _ _ (moved _ _ h)
      | host m => exact hmain _ h (step_busy hi (.inr ⟨m, rest, ha⟩) ▸ hs)

/-- The environment between two micro-steps keeps what each of its moves keeps. -/
theorem gap_keeps {P : State → Prop} (agenda : ∀ s a, P s → P { s with agenda := a })
    (moved : ∀ s m, P s → P { s with encs := envMove s.cfg m s.encs }) {s : State} (h : P s) : P (gap s) := by
  have key : ∀ (l : List Move) (s : State), P s → P { s with encs := gapEncs s.cfg l s.encs } := by
    intro l
    induction l with
    | nil => exact fun _ h => h
    | cons a l ih =>
      intro s h
      cases a with
      | env m => exact ih _ (moved s m h)
      | main => exact h
      | host _ => exact h
  exact agenda _ _ (key s.agenda s h)

/-- The same for a property that does not look at `SEQ`: it is enough that every micro-step of the three components
keeps it. -/
theorem step_keeps_of_ops {P : State → Prop}
    (agenda : ∀ s a, P s → P { s with agenda := a })
    (seq : ∀ s q, P s → P { s with seq := q })
    (written : ∀ s b, P s → P { s with curbuf := b })
    (moved : ∀ s m, P s → P { s with encs := envMove s.cfg m s.encs })
    (op : ∀ s f, (MotorOp s.cfg f ∨ EncOp s.cfg f ∨ CurOp f) → P s → P (f s))
    {s t : State} (h : P s) (hs : step s = .next t) : P t := by
  have hmicro : ∀ s f, (MotorOp s.cfg f ∨ EncOp s.cfg f ∨ CurOp f) → P s → P (microStep f s) := by
    intro s f hf h
    have h' := op s f hf h
    unfold microStep advance
    split
    · exact seq _ _ h'
    · exact h'
  refine step_keeps agenda (fun s c _ h => seq _ _ h) written moved ?_ ?_ h hs
  · intro s w _ h
    have hrun : P (runSteps (wordSteps s.cfg w) s) ∧ (runSteps (wordSteps s.cfg w) s).cfg = s.cfg := by
      refine runSteps_inv (P := fun t => P t ∧ t.cfg = s.cfg) (fun t h => ⟨gap_keeps agenda moved h.1, h.2⟩) ?_ ⟨h, rfl⟩
      rintro f hf t ⟨h1, h2⟩
      have ho := op_of_mem_word hf
      refine ⟨hmicro t f (h2 ▸ ho) h1, ?_⟩
      rw [microStep, advance_cfg, ← h2]
      rcases ho with ho | ho | ho
      · exact (motorOp_keeps ho t).1
      · exact (encOp_keeps ho t).1
      · exact (curOp_keeps ho t).1
    exact hrun.1
  · intro s w k f _ hk h
    exact hmicro s f (op_of_mem_word (mem_of_stepNumber hk)) h

end Sys2Proof.Machine
end

