-- ==== Sys2Proof/Tests/Slice0.lean ====
section
/-! SUPPORT. Tests of single steps, expected results taken from 95_test_vectors.md, and for every obligation with
hypotheses a named witness that meets them. -/

open Sys2Proof Sys2Proof.Machine

namespace Sys2Proof.Tests

/-! ### Helpers -/

/-- The state a step gives. -/
def after (o : Host.Outcome State Fault Refusal) : State :=
  match o with
  | .next s => s
  | _ => State.reset

/-- The state after an instruction. -/
def run (i : Instr) (s : State) : State := after (exec i s)

/-- The last response of a state. -/
def resp (s : State) : Option (Status × Word) := s.responses.getLast?.map fun r => (r.status, r.data)

/-- 95_test_vectors.md CFG-B: both counts invalid, no current sensing. -/
def cfgB : Config := { Config.build with motorCount := 5, encCount := 0, curEn := false }

/-- CFG-C: per-motor current sensing with a wrong conversion count. -/
def cfgC : Config := { Config.build with motorCount := 2, curFull := false, adcNconv := 3 }

/-- CFG-F: four of each, no duty limit. -/
def cfgF : Config := { Config.build with motorCount := 4, encCount := 4, dutyLimit := 65535 }

/-- The reset state of a build. -/
def rst (c : Config) : State := State.resetWith c (Vector.replicate 4 0)

/-- The reset state (CFG-A) with the host's agenda `a`. -/
def withAgenda (a : List Move) : State := { State.reset with agenda := a }

/-- CFG-A with encoder 1 in the given state. -/
def withEnc (e : EncSlot) : State := { State.reset with encs := State.reset.encs.set 0 e }

/-- An encoder slot that runs, with its interrupt enabled. -/
def running (ovf : Word) (cnt : Half) : EncSlot :=
  { ovf := ovf, cnt := cnt, uif := false, wrapDir := .up, uie := true, encRun := true }

/-- A slot with a wrap pending. -/
def pending (ovf : Word) (cnt : Half) (d : WrapDir) : EncSlot := { running ovf cnt with uif := true, wrapDir := d }

/-! ### Well-formedness -/

theorem test_wf_index_too_wide : (Instr.mstart 256 0).wf = false := by decide
theorem test_wf_index_widest : (Instr.mstart 255 0xFFFF).wf = true := by decide
theorem test_wf_query_index_too_wide : (Instr.egetpos 256).wf = false := by decide
theorem test_wf_event_index_too_wide : (Instr.evtOvf 16).wf = false := by decide
theorem test_wf_event_index_widest : (Instr.evtUdf 15).wf = true := by decide

/-! ### Decoding: the words of 95_test_vectors.md 2.1, bit by bit from 30_encoding.md R100, R105, R109 -/

theorem test_decode_minit : decodeTableWord 32 0b00000001000000000000000000000000 = some .minit := by decide
theorem test_decode_minit_ignores : decodeTableWord 32 0x01FFFFFF = some .minit := by decide
theorem test_decode_mstart : decodeTableWord 32 0b00000010000000010010011100001111 = some (.mstart 1 9999) := by decide
theorem test_decode_mstart_widest : decodeTableWord 32 0x02FFFFFF = some (.mstart 255 65535) := by decide
theorem test_decode_msetduty : decodeTableWord 32 0b00000011000000010000001011101110 = some (.msetduty 1 750) := by decide
theorem test_decode_mstop : decodeTableWord 32 0b00000100000000100000000100101100 = some (.mstop 2 300) := by decide
theorem test_decode_moff : decodeTableWord 32 0b00000101000000010000000000000000 = some (.moff 1) := by decide
theorem test_decode_moff_ignores : decodeTableWord 32 0x0501BEEF = some (.moff 1) := by decide
theorem test_decode_mon : decodeTableWord 32 0b00000110000000010000000000000000 = some (.mon 1) := by decide
theorem test_decode_mgetstate : decodeTableWord 32 0b00000111000000100000000000000000 = some (.mgetstate 2) := by decide
theorem test_decode_einit : decodeTableWord 32 0b00010000000000000000000000000000 = some .einit := by decide
theorem test_decode_egetcnt : decodeTableWord 32 0b00010001000000010000000000000000 = some (.egetcnt 1) := by decide
theorem test_decode_egetpos : decodeTableWord 32 0b00010010000000010000000000000000 = some (.egetpos 1) := by decide
theorem test_decode_cgetcur : decodeTableWord 32 0b00100000000000000000000000000000 = some .cgetcur := by decide
theorem test_decode_evtOvf : decodeTableWord 8 0b00010001 = some (.evtOvf 1) := by decide
theorem test_decode_evtUdf : decodeTableWord 8 0b00100001 = some (.evtUdf 1) := by decide
theorem test_decode_evtOvf_widest : decodeTableWord 8 0x1F = some (.evtOvf 15) := by decide
theorem test_decode_reserved_opcode :
    decodeCommand 0x13010000 = .error (.reservedOpcode 0x13) ∧ decodeCommand 0xFF000000 = .error (.reservedOpcode 0xFF) ∧
    decodeCommand 0 = .error (.reservedOpcode 0) ∧ decodeCommand 0x21000000 = .error (.reservedOpcode 0x21) := by decide
theorem test_decode_reserved_kind :
    decodeEvent 0x31 = .error (.reservedKind 3) ∧ decodeEvent 0x01 = .error (.reservedKind 0) ∧
    decodeEvent 0xF1 = .error (.reservedKind 15) := by decide
theorem test_encode_mstart : encode (.mstart 1 9999) = .cmd32 0x0201270F := by decide

/-! ### MotorDriver (95_test_vectors.md 2.2, S6, S7, P1) -/

set_option maxRecDepth 8000 in
theorem test_minit : resp (run .minit State.reset) = some (.ok, 0) ∧ (run .minit State.reset).trace.length = 18 ∧
    (run .minit State.reset).motor 2 =
      { state := .stopped, duty := 500, sleep := 1, offp := 0, dir := 0, pwmRun := true } := by decide

theorem test_minit_invalid : resp (run .minit (rst cfgB)) = some (.invalidConfig, 0) ∧
    resp (run .minit (rst cfgC)) = some (.invalidConfig, 0) ∧ (run .minit (rst cfgC)).trace = [] := by decide

theorem test_mstart : (run (.mstart 1 9999) State.reset).motor 1 =
      { state := .running, duty := 1000, sleep := 0, offp := 0, dir := 1, pwmRun := false } ∧
    (run (.mstart 1 9999) State.reset).motor 2 = MotorSlot.reset := by decide

theorem test_msetduty : ((run (.msetduty 1 1001) State.reset).motor 1).duty = 1000 ∧
    ((run (.msetduty 1 750) State.reset).motor 1).duty = 750 := by decide

theorem test_mstop : (run (.mstop 2 300) (run (.mstart 2 500) State.reset)).motor 2 =
      { state := .stopped, duty := 300, sleep := 0, offp := 0, dir := 0, pwmRun := false } := by decide

theorem test_moff : ((run (.moff 1) (run (.mstart 1 800) State.reset)).motor 1).offp = 1 ∧
    ((run (.moff 1) (run (.mstart 1 800) State.reset)).motor 1).dir = 1 ∧
    ((run (.moff 1) (run (.mstart 1 800) State.reset)).motor 1).state = .off := by decide

theorem test_mon : ((run (.mon 1) State.reset).motor 1).state = .stopped ∧
    ((run (.mon 1) (run (.mstart 1 800) State.reset)).motor 1).state = .running := by decide

theorem test_mgetstate :
    resp (run (.mgetstate 1) { State.reset with pins := ⟨[1], 0⟩ }) = some (.ok, 1) ∧
    resp (run (.mgetstate 3) { State.reset with pins := ⟨[1], 0⟩ }) = some (.indexOutOfRange, 0) := by decide

theorem test_mgetstate_free (s : State) (h : s.pins = ⟨[], 0⟩) (hi : motorOk s.cfg 1 = true) :
    ∃ v : Level, resp (run (.mgetstate 1) s) = some (.ok, v.setWidth 32) := by
  refine ⟨Config.freeLevel 0, ?_⟩
  simp [run, exec, execMgetstate, mgetstateSteps, hi, after, runSteps, microStep, noChange, readPin, respondVal, resp, h,
    feedNth]

/-! ### Encoder (2.3, 2.4, S8, P6) -/

theorem test_einit : (run .einit State.reset).enc 1 =
      { ovf := 0, cnt := 0, uif := false, wrapDir := .up, uie := true, encRun := true } ∧
    (run .einit State.reset).enc 2 = EncSlot.reset ∧
    (run .einit State.reset).trace = [.clearOverflowFlag 1, .enableBaseInterrupt 1, .resetCounter 1, .startEncoderMode 1] := by
  decide

/-- P6: the wrap falls after step 1, the event is taken after step 3. -/
theorem test_einit_race :
    (run .einit { withEnc (running 0 65535) with
      agenda := [.main, .main, .env (.count 1 .up), .main, .main, .env (.deliver 1)] }).enc 1 = running 1 0 := by decide

theorem test_egetcnt : resp (run (.egetcnt 1) (withEnc (running 0 60000))) = some (.ok, 0x0000EA60) ∧
    resp (run (.egetcnt 2) (withEnc (running 0 60000))) = some (.indexOutOfRange, 0) := by decide

theorem test_egetpos : resp (run (.egetpos 1) (withEnc (running 1 100))) = some (.ok, 0x00010064) ∧
    resp (run (.egetpos 1) (withEnc (running (-1) 65535))) = some (.ok, 0xFFFFFFFF) ∧
    resp (run (.egetpos 1) (withEnc (running 32768 0))) = some (.ok, 0x80000000) ∧
    resp (run (.egetpos 1) (withEnc (pending 0 100 .up))) = some (.ok, 100) := by decide

theorem test_egetpos_modulus : position { Config.build with modulus := 1000 } (running (-4) 250) = 0xFFFFF15A ∧
    position { Config.build with modulus := 2 } (running 5 1) = 0x0000000B := by decide

theorem test_evtOvf : ((run (.evtOvf 1) (withEnc (running 0x7FFFFFFF 5))).enc 1).ovf = 0x80000000 ∧
    run (.evtOvf 2) (withEnc (running 5 5)) = withEnc (running 5 5) := by decide

theorem test_evtUdf : ((run (.evtUdf 1) (withEnc (running 0x80000000 5))).enc 1).ovf = 0x7FFFFFFF ∧
    ((run (.evtUdf 1) State.reset).enc 1).ovf = 0xFFFFFFFF := by decide

theorem test_count_wrap : ((after (step { withEnc (running 0 65535) with agenda := [.env (.count 1 .up)] })).enc 1) =
    pending 0 0 .up := by decide

theorem test_deliver : ((after (step { withEnc (pending 0 65436 .down) with agenda := [.env (.deliver 1)] })).enc 1) =
    { running 0xFFFFFFFF 65436 with wrapDir := .down } := by decide

/-! ### CurrentSensor (2.5, S9) -/

set_option maxRecDepth 8000 in
theorem test_cgetcur_timeout :
    resp (run .cgetcur { State.reset with polls := ⟨[true, true, false, true], 0⟩, raws := ⟨[100, 200, 400], 0⟩ }) =
      some (.convTimeout, 0) ∧
    (run .cgetcur { State.reset with
      curbuf := #v[0xDEAD0001, 0xDEAD0002, 0xDEAD0003, 0xDEAD0004]
      polls := ⟨[true, true, false, true], 0⟩, raws := ⟨[100, 200, 400], 0⟩ }).curbuf =
      #v[0x320, 0x640, 0xDEAD0003, 0xC80] := by decide

theorem test_cgetcur_disabled : resp (run .cgetcur (rst cfgB)) = some (.featureDisabled, 0) := by decide

/-! ### The host's questions: a row's word is the first thing a step runs -/

theorem test_withFetchWord_command :
    ((after (step (State.reset.withFetchWord 32 0x020103E8))).motor 1).duty = 1000 := by decide

theorem test_withFetchWord_event : ((after (step (State.reset.withFetchWord 8 0x11))).enc 1).ovf = 1 := by decide

theorem test_reserved_word : resp (after (step (withAgenda [.host (.issue 0x99123456)]))) = some (.illegalCommand, 0) := by
  decide

/-! ### Witnesses: for every obligation with hypotheses, values that meet them -/

theorem witness_DecodeInvertsEncode : (Instr.mstop 255 0xFFFF).wf = true ∧ (Instr.moff 0).wf = true ∧
    (Instr.evtOvf 15).wf = true := by decide

theorem witness_EncodeInvertsDecode :
    (decodeCommand 0x02FFFFFF = .ok (.mstart 255 0xFFFF)) ∧
    (decodeCommand 0x05FF0000 = .ok (.moff 255) ∧ dutyOf 0x05FF0000 = 0) ∧
    (decodeCommand 0x20000000 = .ok .cgetcur ∧ idxOf 0x20000000 = 0 ∧ dutyOf 0x20000000 = 0) ∧
    decodeEvent 0x2F = .ok (.evtUdf 15) ∧ decode (.evt8 0x1F) = .ok (.evtOvf 15) := by decide

/-- A word that uses no field, one that uses `IDX` only, one that uses both. -/
theorem witness_IgnoredFieldsDoNotMatter :
    (opcOf 0x01000000 = opcOf 0x01FFFFFF ∧ opcOf 0x01000000 ∈ [0x01#8, 0x10#8, 0x20#8]) ∧
    (opcOf 0x05010000 = opcOf 0x0501BEEF ∧ idxOf 0x05010000 = idxOf 0x0501BEEF ∧
      opcOf 0x05010000 ∉ [0x02#8, 0x03#8, 0x04#8]) ∧
    (idxOf 0x0201270F = 1 ∧ dutyOf 0x0201270F = 9999) ∧ encode (.moff 255) = .cmd32 0x05FF0000 := by decide

theorem witness_StepRunsTheDecodedInstruction :
    ((withAgenda [.host (.issue 0x0201270F)]).seq = .idle ∧ decode (.cmd32 0x0201270F) = .ok (.mstart 1 9999)) ∧
    decode (.evt8 0x11) = .ok (.evtOvf 1) := by decide

theorem witness_ReservedCommandRespondsIllegal : (withAgenda [.host (.issue 0x08FFFFFF)]).seq = .idle ∧
    opcOf 0x08FFFFFF ∉ [0x01#8, 0x02#8, 0x03#8, 0x04#8, 0x05#8, 0x06#8, 0x07#8, 0x10#8, 0x11#8, 0x12#8, 0x20#8] := by
  decide

theorem witness_ReservedEventChangesNothing : (kindOf 0x31 ≠ 1 ∧ kindOf 0x31 ≠ 2) ∧
    encOk State.reset.cfg (eidxOf 0x12) = false ∧ encOk State.reset.cfg (eidxOf 0x10) = false := by decide

/-- The core stands at the last micro-step of `MSETDUTY 1, 750`. -/
def atLastStep : State := { State.reset with seq := .busy 0x030102EE 3 }

theorem witness_CommandAcceptedOnlyWhenIdle : (withAgenda [.host (.issueStepped 0x01000000)]).seq = .idle ∧
    (stepNumber (wordSteps atLastStep.cfg 0x030102EE) 3).isSome = true ∧ atLastStep.agenda = [] := by decide

theorem witness_SteppedRunEqualsOneStep : (withAgenda [.host (.issueStepped 0x10000000), .env (.count 1 .up)]).seq = .idle := by
  decide

theorem witness_SeqInRange : SeqInRange atLastStep := by
  intro w k h
  cases h
  decide

theorem witness_SeqInRange_first : SeqInRange { State.reset with seq := .busy 0x01000000 1 } := by
  intro w k h
  cases h
  decide

theorem witness_ResetStateIsTheTable : (1 : Nat) ≤ 4 ∧ 4 ≤ 4 := by decide

theorem witness_ResetMeetsInvariants : 0 < Config.build.modulus := by decide

/-- Both ends of the slots, and of the buffer's elements. -/
theorem witness_CapabilityCallsHaveTheirEffects : (1 : Nat) ≤ 1 ∧ (4 : Nat) ≤ 4 ∧ State.reset.bufferAt 3 = 0 := by decide

theorem witness_WritesAreIdempotent : bufWrite 3 7 ∈ [bufWrite 3 7] := List.mem_cons_self ..

theorem witness_MinitWakesEveryConfiguredSlot : motorCountOk cfgB = false ∧
    (motorCountOk cfgC = true ∧ adcCountMismatch cfgC = true) ∧
    (motorCountOk Config.build = true ∧ adcCountMismatch Config.build = false) ∧
    (motorCountOk cfgF = true ∧ adcCountMismatch cfgF = false) := by decide

theorem witness_MinitBringsSlotsUpInOrder : motorCountOk cfgF = true ∧ adcCountMismatch cfgF = false ∧
    1 ≤ 4 ∧ 4 ≤ cfgF.motorCount ∧ 11 ≤ 11 := by decide

theorem witness_MinitWaitsForEverySlot : motorCountOk State.reset.cfg = true ∧ adcCountMismatch State.reset.cfg = false := by
  decide

/-- For the seven statements about an indexed MotorDriver command: the edges of the index range. -/
theorem witness_motor_index : motorOk Config.build 0 = false ∧ motorOk Config.build 1 = true ∧
    motorOk Config.build 2 = true ∧ motorOk Config.build 3 = false ∧ motorOk cfgF 4 = true ∧ motorOk cfgF 5 = false ∧
    motorOk cfgB 1 = false := by decide

/-- For the statements about an indexed Encoder command or an event. -/
theorem witness_encoder_index : encOk Config.build 0 = false ∧ encOk Config.build 1 = true ∧
    encOk Config.build 2 = false ∧ encOk cfgF 4 = true ∧ encOk cfgF 5 = false ∧ encOk cfgB 1 = false := by decide

/-- Two states that differ in lifecycle states only; `MOFF` writes one of a configured slot, and of no other. -/
theorem witness_NoCommandTestsTheLifecycle :
    forgetLifecycle (setState 1 .off State.reset) = forgetLifecycle State.reset ∧ setState 1 .off State.reset ≠ State.reset := by
  refine ⟨?_, by decide⟩
  simp only [forgetLifecycle, setState, onMotor, State.mk.injEq, true_and, and_true]
  apply Vector.ext
  intro k hk
  interval_cases k <;> rw [Vector.getElem_map, Vector.getElem_map] <;> rfl

/-- The state after `MINIT`. -/
def woken : State := { State.reset with motors := #v[wokenSlot Config.build, wokenSlot Config.build, MotorSlot.reset, MotorSlot.reset] }

theorem witness_LifecycleAgreesWithBridge : BridgeAgrees woken := by
  intro i h
  obtain ⟨h1, h4⟩ := motorOk_range h
  unfold agreesWithBridge
  interval_cases i
  · decide
  · decide
  · exact absurd h (by decide)
  · exact absurd h (by decide)

theorem witness_LifecycleAgreesWithBridge_stop : motorOk woken.cfg 1 = true ∧ (woken.motor 1).offp = 0 := by decide

theorem witness_StopOnACoastingSlotDoesNotBrake : motorOk (run (.moff 1) woken).cfg 1 = true ∧
    ((run (.moff 1) woken).motor 1).sleep = 1 ∧ ((run (.moff 1) woken).motor 1).offp = 1 := by decide

theorem witness_EinitStartsEveryConfiguredChannel : encCountOk cfgB = false ∧ encCountOk Config.build = true ∧
    encCountOk cfgF = true := by decide

theorem witness_EinitZeroesConfiguredChannels : encCountOk (withAgenda [.main, .host (.issue 0)]).cfg = true ∧
    quiet (withAgenda [.main, .host (.issue 0)]) := by
  refine ⟨by decide, ?_⟩
  intro m
  simp [withAgenda]

theorem witness_EinitZeroesThePositionInOneStep : decodeCommand 0x10000000 = .ok .einit ∧ encCountOk cfgF = true ∧
    1 ≤ 4 ∧ 4 ≤ cfgF.encCount ∧
    ({ rst cfgF with seq := .busy 0x10000000 4 } : State).seq = .busy 0x10000000 (4 * (cfgF.encCount - 4) + 4) ∧
    ({ rst cfgF with seq := .busy 0x10000000 16 } : State).seq = .busy 0x10000000 (4 * (cfgF.encCount - 1) + 4) := by
  decide

/-- Both ends of the exact range (95_test_vectors.md 2.3), and a pending wrap of each direction. -/
theorem witness_PositionIsTrueUpToThePendingWrap :
    (65536 : Int) * (running 32767 65535).ovf.toInt + ((running 32767 65535).cnt.toNat : Int) = 2147483647 ∧
    (65536 : Int) * (running (-32768) 0).ovf.toInt + ((running (-32768) 0).cnt.toNat : Int) = -2147483648 ∧
    (running 0 0).uif = false ∧ ((pending 0 100 .up).uif = true ∧ (pending 0 100 .up).wrapDir = .up) ∧
    ((pending 0 65500 .down).uif = true ∧ (pending 0 65500 .down).wrapDir = .down) := by decide

theorem witness_CountingLaw : encOk State.reset.cfg 1 = true ∧ State.reset.agenda = [] ∧
    (∀ i ∈ [Instr.evtOvf 1, .egetcnt 1, .evtUdf 1, .evtOvf 3],
      i = .egetcnt 1 ∨ ∃ k, i = .evtOvf k ∨ i = .evtUdf k) ∧
    (overflowsOn 1 [Instr.evtOvf 1, .egetcnt 1, .evtUdf 1, .evtOvf 3] = 1) := by
  refine ⟨by decide, rfl, ?_, by decide⟩
  simp

theorem witness_EventsCommute : (Instr.evtOvf 1).isEvent = true ∧ (Instr.evtUdf 1).isEvent = true := by decide

theorem witness_EventsCommuteWithMicroSteps : writeDuty 1 500 ∈ instrSteps State.reset.cfg (.msetduty 1 500) ∧
    (Instr.msetduty 1 500 ≠ .einit ∧ ∀ j, Instr.msetduty 1 500 ≠ .egetpos j) := by
  refine ⟨?_, by decide, fun j => by simp⟩
  exact List.mem_cons_of_mem _ (List.mem_cons_self ..)

theorem reset_countsInRange : CountsInRange State.reset := by
  intro j
  simp [State.reset, State.resetWith, State.enc, EncSlot.reset, Config.build]

/-- A running channel at the top of its range: the next count up wraps. -/
theorem witness_CountStepIsByOne : CountsInRange (withEnc (running 0 65535)) ∧
    (withEnc (running 0 65535)).cfg.modulus ≤ 65536 ∧ ((withEnc (running 0 65535)).enc 1).encRun = true ∧
    ((withEnc (running 0 65535)).enc 1).uif = false ∧ ((withEnc (running 0 65535)).enc 1).cnt.toNat + 1 = 65536 := by
  refine ⟨?_, by decide, by decide, by decide, by decide⟩
  intro j
  have h := ((withEnc (running 0 65535)).enc j).cnt.isLt
  exact h

/-- The other clauses of the same statement: no wrap; a second wrap while one is pending; a counter at rest. -/
theorem witness_CountStepIsByOne_clauses : ((withEnc (running 0 7)).enc 1).cnt.toNat + 1 ≠ 65536 ∧
    ((withEnc (pending 0 65535 .up)).enc 1).uif = true ∧ ((withEnc EncSlot.reset).enc 1).encRun = false := by decide

theorem witness_TruePositionFollowsTheShaft :
    ((withEnc (pending 32766 5 .up)).enc 1).ovf.toInt + pend ((withEnc (pending 32766 5 .up)).enc 1) ≤ 2147483647 ∧
    -2147483648 ≤ ((withEnc (pending 0 5 .down)).enc 1).ovf.toInt + pend ((withEnc (pending 0 5 .down)).enc 1) ∧
    encOk (withEnc (pending 0 5 .down)).cfg 1 = true := by decide

theorem witness_DeliveryTakesThePendingEvent : ((withEnc (running 0 5)).enc 1).uif = false ∧
    (((withEnc (pending 0 5 .up)).enc 1).uif = true ∧ ((withEnc (pending 0 5 .up)).enc 1).uie = true) := by decide

/-- One channel for each clause: pending down; pending up; pending and not enabled; nothing pending. -/
def fourChannels : State :=
  { rst cfgF with encs := #v[pending 0 5 .down, pending 7 6 .up, { pending 1 7 .up with uie := false }, running 2 8] }

theorem witness_PendingEventsAreDelivered : fourChannels.seq = .idle ∧ fourChannels.agenda = [] ∧
    ((fourChannels.enc 2).uif = true ∧ (fourChannels.enc 2).uie = true ∧ encOk fourChannels.cfg 2 = true) ∧
    ((fourChannels.enc 3).uif = true ∧ (fourChannels.enc 3).uie = false) ∧ (fourChannels.enc 4).uif = false ∧
    (encOk (withEnc (pending 0 5 .up)).cfg 1 = true ∧ encOk { (withEnc (pending 0 5 .up)).cfg with encCount := 0 } 1 = false) := by
  decide

/-- R204: the first two channels are delivered, lowest first (log 6); the others keep everything. -/
theorem test_settle : (settle (settle fourChannels)).encs =
      #v[running (-1) 5, running 8 6, { pending 1 7 .up with uie := false }, running 2 8].set 0
        { running (-1) 5 with wrapDir := .down } ∧
    settle (settle (settle fourChannels)) = settle (settle fourChannels) := by decide

theorem witness_HostWritesItsBuffer : (withAgenda [.host (.write 3 0xDEAD0004)]).seq = .idle ∧ 3 < 4 := by decide

theorem witness_CgetcurSamplesEveryChannel : cfgB.curEn = false ∧
    ({ cfgC with motorCount := 5 }.curEn = true ∧ { cfgC with motorCount := 5 }.curFull = false ∧
      motorCountOk { cfgC with motorCount := 5 } = false) ∧
    (Config.build.curEn = true ∧ Config.build.curFull = true) ∧ (cfgC.curEn = true ∧ motorCountOk cfgC = true) := by
  decide

theorem witness_ScaleIsExact : { Config.build with adcBits := 16 }.adcBits ≤ 16 := by decide

theorem witness_OneResponsePerCommand : (Instr.evtOvf 1).isEvent = true ∧ Instr.cgetcur.isEvent = false ∧
    returnsData .cgetcur = false ∧ Status.convTimeout ≠ .ok := by decide

theorem witness_OnlyItsFamilyWritesEachState : Instr.cgetcur.isMotor = false ∧ Instr.minit ≠ .cgetcur ∧
    Instr.minit ≠ .einit ∧ Instr.minit.isEvent = false := by decide

set_option maxRecDepth 4000 in
theorem witness_NoTwoEntriesNameOnePin : Config.build.wf = true ∧ Config.build.pinId (.status 4) = some ⟨3, 3⟩ := by decide

theorem witness_StepKeepsTheBuild : ∃ t, step State.reset = .next t := ⟨_, rfl⟩

theorem reset_dutyBounded : DutyBounded State.reset := by
  intro i
  simp only [State.reset, State.resetWith, State.motor, slotAt_replicate]
  split <;> decide

theorem reset_unconfiguredAtReset : UnconfiguredAtReset State.reset := by
  constructor
  all_goals
    intro i _
    simp [State.reset, State.resetWith, State.motor, State.enc]

theorem reset_localsClean : LocalsClean State.reset := fun _ => rfl

/-- `MINIT` stands at its step 2 for slot 1, which is `Sleeping`. -/
def waking : State := setState 1 .sleeping { State.reset with seq := .busy 0x01000000 4 }

theorem witness_StepKeepsLifecycleLegal : LifecycleLegal waking ∧ transitional (waking.motor 1).state = true := by
  refine ⟨?_, by decide⟩
  intro i h
  have hi : i = 1 := by
    by_contra hne
    have he : waking.motor i = State.reset.motor i := slotAt_slotMap_ne hne
    rw [he] at h
    simp [State.reset, State.resetWith, State.motor, MotorSlot.reset, transitional] at h
  subst hi
  exact ⟨0x01000000, 4, rfl, by decide, by decide, by decide⟩

end Sys2Proof.Tests
end

section
/-! PROOFS. The pins of a build whose parameters are in range (00_scope.md R15). -/

namespace Sys2Proof

/-- The four pin tables laid end to end, as the check of the wiring reads them (R15). -/
def Wiring.pins (w : Wiring) : List PinId :=
  w.sleepPin.toList ++ w.offPin.toList ++ w.dirPin.toList ++ w.statusPin.toList

/-- The wiring-table entry at place `n` of `Wiring.pins`. -/
def Pin.atPlace (n : Nat) : Pin :=
  if n < 12 then
    if n < 8 then
      if n < 4 then .sleep (n + 1) else .off (n - 4 + 1)
    else .dir (n - 8 + 1)
  else .status (n - 12 + 1)

theorem Config.pins_nodup_of_wf {c : Config} (h : c.wf = true) : c.wiring.pins.Nodup := by
  simp only [Config.wf, Wiring.injective, Bool.and_eq_true, decide_eq_true_eq] at h
  obtain ⟨_, ⟨hpins, _⟩, _⟩ := h
  exact hpins

theorem Config.pinId_atPlace (c : Config) (n : Nat) : c.pinId (.atPlace n) = c.wiring.pins[n]? := by
  simp only [Pin.atPlace, Wiring.pins, List.getElem?_append, List.length_append, Vector.length_toList,
    Vector.getElem?_toList, Nat.reduceAdd]
  split_ifs <;> rfl

/-- An entry that names a pin is motor 1..4's, so it has a place. -/
theorem Config.exists_eq_atPlace {c : Config} {p : Pin} {x : PinId} (h : c.pinId p = some x) :
    ∃ n, p = .atPlace n := by
  rcases p with (_ | k) | (_ | k) | (_ | k) | (_ | k)
  case sleep.succ =>
    obtain ⟨hk, _⟩ := Vector.getElem?_eq_some_iff.mp h
    exact ⟨k, by grind [Pin.atPlace]⟩
  case off.succ =>
    obtain ⟨hk, _⟩ := Vector.getElem?_eq_some_iff.mp h
    exact ⟨k + 4, by grind [Pin.atPlace]⟩
  case dir.succ =>
    obtain ⟨hk, _⟩ := Vector.getElem?_eq_some_iff.mp h
    exact ⟨k + 8, by grind [Pin.atPlace]⟩
  case status.succ => exact ⟨k + 12, by grind [Pin.atPlace]⟩
  all_goals cases h

/-- Settles O49: an entry's pin stands at the entry's place in a list without duplicates, so two entries
that name one pin have one place. -/
theorem noTwoEntriesNameOnePin : Obligations.NoTwoEntriesNameOnePin := by
  intro c p q x hwf hp hq
  obtain ⟨m, rfl⟩ := Config.exists_eq_atPlace hp
  obtain ⟨n, rfl⟩ := Config.exists_eq_atPlace hq
  rw [Config.pinId_atPlace] at hp hq
  obtain ⟨hm, _⟩ := List.getElem?_eq_some_iff.mp hp
  have hplace : m = n := List.getElem?_inj hm (Config.pins_nodup_of_wf hwf) |>.mp (hp.trans hq.symm)
  rw [hplace]

end Sys2Proof
end


section
/-! PROOFS. What a micro-step of any component writes to the slot arrays, and the state invariants that follow
from that (10_state.md R39, R49, R50, R52). -/

namespace Sys2Proof.Machine

/-! ### What one micro-step writes -/

/-- A MotorDriver micro-step writes at most one motor slot, a configured one, and no duty above the limit (R50, R52). -/
theorem motorOp_motors {c : Config} {f : MicroStep} (h : MotorOp c f) (s : State) :
    (f s).motors = s.motors ∨ ∃ i g, motorOk c i = true ∧
      (f s).motors = slotMap s.motors g i ∧ ∀ m, (g m).duty = m.duty ∨ (g m).duty ≤ c.dutyLimit := by
  cases h with
  | noChange | respond | respondVal | delay | readPin => exact .inl rfl
  | setState i st hi => exact .inr ⟨i, fun m => { m with state := st }, hi, rfl, fun _ => .inl rfl⟩
  | setStateByDir i hi =>
    exact .inr ⟨i, fun m => { m with state := if m.dir = 1 then .running else .stopped }, hi, rfl, fun _ => .inl rfl⟩
  | sleepPin i v hi => exact .inr ⟨i, fun m => { m with sleep := v }, hi, rfl, fun _ => .inl rfl⟩
  | offPin i v hi => exact .inr ⟨i, fun m => { m with offp := v }, hi, rfl, fun _ => .inl rfl⟩
  | dirPin i v hi => exact .inr ⟨i, fun m => { m with dir := v }, hi, rfl, fun _ => .inl rfl⟩
  | wakePin i v st hi =>
    exact .inr ⟨i, _, hi, slotMap_slotMap s.motors (fun m => { m with sleep := v }) (fun m => { m with state := st }) i,
      fun _ => .inl rfl⟩
  | startChannel i hi => exact .inr ⟨i, fun m => { m with pwmRun := true }, hi, rfl, fun _ => .inl rfl⟩
  | writeDuty i v hi hv => exact .inr ⟨i, fun m => { m with duty := v }, hi, rfl, fun _ => .inr hv⟩

/-- An Encoder micro-step writes at most one encoder slot, a configured one, and no count but 0 (R39, R52). -/
theorem encOp_encs {c : Config} {f : MicroStep} (h : EncOp c f) (s : State) :
    (f s).encs = s.encs ∨ ∃ j g, encOk c j = true ∧
      (f s).encs = slotMap s.encs g j ∧ ∀ e, (g e).cnt = e.cnt ∨ (g e).cnt = 0 := by
  cases h with
  | noChange | respond | respondVal | readCounter | readPosition => exact .inl rfl
  | clearOverflowFlag j hj => exact .inr ⟨j, fun e => { e with uif := false }, hj, rfl, fun _ => .inl rfl⟩
  | enableBaseInterrupt j hj => exact .inr ⟨j, fun e => { e with uie := true }, hj, rfl, fun _ => .inl rfl⟩
  | zero j hj =>
    exact .inr ⟨j, _, hj, slotMap_slotMap s.encs (fun e => { e with cnt := 0 }) (fun e => { e with ovf := 0 }) j,
      fun _ => .inr rfl⟩
  | startEncoderMode j hj => exact .inr ⟨j, fun e => { e with encRun := true }, hj, rfl, fun _ => .inl rfl⟩

section
variable {c : Config} {f : MicroStep} (h : MotorOp c f ∨ EncOp c f ∨ CurOp f)
include h

/-- No micro-step changes the build (R49). -/
theorem op_cfg (s : State) : (f s).cfg = s.cfg := by
  rcases h with h | h | h
  · exact (motorOp_keeps h s).1
  · exact (encOp_keeps h s).1
  · exact (curOp_keeps h s).1

/-- What a micro-step of any component does to motor slot `k`: only a configured slot changes, and its duty stays or
is written within the limit. -/
theorem op_motor (s : State) (k : Nat) :
    (motorOk c k = false → (f s).motor k = s.motor k) ∧
      (((f s).motor k).duty = (s.motor k).duty ∨ ((f s).motor k).duty ≤ c.dutyLimit) := by
  obtain e | ⟨i, g, hi, e, hg⟩ := h.elim (motorOp_motors · s) fun h =>
    .inl (h.elim (fun h => (encOp_keeps h s).2.1) fun h => (curOp_keeps h s).2.1)
  · simp [State.motor, e]
  · simp only [State.motor, e, slotAt_slotMap]
    split
    · rename_i hk
      exact ⟨fun hn => by simp [hk.1, hi] at hn, hg _⟩
    · exact ⟨fun _ => rfl, .inl rfl⟩

/-- What a micro-step of any component does to encoder slot `k`: only a configured slot changes, and its count stays
or is zeroed. -/
theorem op_enc (s : State) (k : Nat) :
    (encOk c k = false → (f s).enc k = s.enc k) ∧
      (((f s).enc k).cnt = (s.enc k).cnt ∨ ((f s).enc k).cnt = 0) := by
  obtain e | ⟨j, g, hj, e, hg⟩ := h.symm.elim
    (fun h => h.elim (encOp_encs · s) fun h => .inl ((curOp_blind h).keeps s).1)
    fun h => .inl ((motorOp_blind h).keeps s).1
  · simp [State.enc, e]
  · simp only [State.enc, e, slotAt_slotMap]
    split
    · rename_i hk
      exact ⟨fun hn => by simp [hk.1, hj] at hn, hg _⟩
    · exact ⟨fun _ => rfl, .inl rfl⟩

end

/-! ### The invariants -/

/-- Settles O50: neither a move nor a micro-step writes the build. -/
theorem stepKeepsTheBuild : Obligations.StepKeepsTheBuild := by
  intro s t hs
  refine step_keeps_of_ops (P := fun u => u.cfg = s.cfg) (fun _ _ h => h) (fun _ _ h => h) (fun _ _ h => h)
    (fun _ _ h => h) ?_ rfl hs
  exact fun u f hf h => (op_cfg hf u).trans h

/-- Settles O51: a micro-step leaves a duty register or writes it within the limit, and nothing else writes one. -/
theorem stepKeepsDutyBounded : Obligations.StepKeepsDutyBounded := by
  intro s t h hs
  refine step_keeps_of_ops (P := DutyBounded) (fun _ _ h => h) (fun _ _ h => h) (fun _ _ h => h)
    (fun _ _ h => h) ?_ h hs
  intro u f hf h k
  rw [op_cfg hf]
  rcases (op_motor hf u k).2 with e | e
  · exact e ▸ h k
  · exact e

/-- Settles O53: a micro-step writes configured slots only, and the environment leaves a slot that is not configured
and at reset as it is. -/
theorem stepKeepsUnconfiguredAtReset : Obligations.StepKeepsUnconfiguredAtReset := by
  intro s t h hs
  refine step_keeps_of_ops (P := UnconfiguredAtReset) (fun _ _ h => h) (fun _ _ h => h) (fun _ _ h => h)
    ?moved ?op h hs
  case moved =>
    rintro u m ⟨hm, he⟩
    refine ⟨hm, fun j hj => ?_⟩
    obtain ⟨g, hg, e⟩ := envMove_envFn u.cfg m j
    exact (e u.encs).trans ((congrArg g (he j hj)).trans (hg.reset hj))
  case op =>
    rintro u f hf ⟨hm, he⟩
    refine ⟨fun i hi => ?_, fun j hj => ?_⟩
    · rw [op_cfg hf] at hi
      exact ((op_motor hf u i).1 hi).trans (hm i hi)
    · rw [op_cfg hf] at hj
      exact ((op_enc hf u j).1 hj).trans (he j hj)

/-- Settles O54: the environment counts modulo `MODULUS`, and a micro-step leaves a count or zeroes it. -/
theorem stepKeepsCountsInRange : Obligations.StepKeepsCountsInRange := by
  intro s t h hs
  refine step_keeps_of_ops (P := CountsInRange) (fun _ _ h => h) (fun _ _ h => h) (fun _ _ h => h)
    ?moved ?op h hs
  case moved =>
    intro u m h j
    obtain ⟨g, hg, e⟩ := envMove_envFn u.cfg m j
    simpa only [State.enc, e] using hg.range _ (h j)
  case op =>
    intro u f hf h j
    rw [op_cfg hf]
    have hj := h j
    rcases (op_enc hf u j).2 with e | e
    · exact e ▸ hj
    · rw [e]
      exact Nat.lt_of_le_of_lt (Nat.zero_le _) hj

end Sys2Proof.Machine
end


section
/-! PROOFS. A command run in one step, as the micro-steps it is made of: the induction along `SEQ`, and what follows
from it for a command's own values (10_state.md R46) and for the model's two grains (log 7). -/

namespace Sys2Proof.Machine

/-! ### One command, micro-step by micro-step -/

theorem stepNumber_append (pre : List MicroStep) (f : MicroStep) (post : List MicroStep) :
    stepNumber (pre ++ f :: post) (pre.length + 1) = some f := by
  simp [stepNumber]

theorem microStep_gap_cfg {c : Config} {w : Word} {f : MicroStep} (h : f ∈ wordSteps c w) (s : State) :
    (microStep f (gap s)).cfg = s.cfg := by
  rw [microStep, advance_cfg, op_cfg (op_of_mem_word h), gap_cfg]

/-- A micro-step that keeps the sequencer busy moves `SEQ` on by one (R45). -/
theorem microStep_seq_of_keepsSeq {f : MicroStep} (hf : KeepsSeq f) {s : State} {w : Word} {k : Nat}
    (hs : s.seq = .busy w k) : (microStep f s).seq = .busy w (k + 1) := by
  rw [microStep, advance_seq, (hf s).1, hs]

/-- After the micro-step that responds the core is idle and no value of the command is left (R23). -/
theorem microStep_of_responds {f : MicroStep} (hf : Responds f) (s : State) :
    (microStep f s).seq = .idle ∧ (microStep f s).locals = Locals.reset := by
  obtain ⟨hseq, hlocals, -⟩ := hf s
  rw [microStep, advance_of_idle hseq]
  exact ⟨hseq, hlocals⟩

/-- What the interleaving point and the micro-step that `SEQ` names keep, the run of a whole command
keeps (R88, R90). -/
theorem runSteps_word_keeps {P : State → Prop} {w : Word}
    (next : ∀ s k f, s.seq = .busy w k → stepNumber (wordSteps s.cfg w) k = some f → P s → P (microStep f (gap s)))
    {s : State} (hs : s.seq = .busy w 1) (h : P s) : P (runSteps (wordSteps s.cfg w) s) := by
  obtain ⟨fs, last, hw, hkeep, -⟩ := wordSteps_shape s.cfg w
  have busy : ∀ (gs pre : List MicroStep) (t : State), t.cfg = s.cfg → fs = pre ++ gs →
      t.seq = .busy w (pre.length + 1) → P t →
      P (runSteps gs t) ∧ (runSteps gs t).cfg = s.cfg ∧ (runSteps gs t).seq = .busy w (fs.length + 1) := by
    intro gs
    induction gs with
    | nil => exact fun pre t hc hfs ht h => ⟨h, hc, by simpa [runSteps, hfs] using ht⟩
    | cons g gs ih =>
      intro pre t hc hfs ht h
      have hmem : g ∈ wordSteps t.cfg w := by simp [hc, hw, hfs]
      have hstep : stepNumber (wordSteps t.cfg w) (pre.length + 1) = some g := by
        rw [hc, hw, hfs, List.append_assoc]
        exact stepNumber_append ..
      refine ih (pre ++ [g]) _ ((microStep_gap_cfg hmem t).trans hc) (by simp [hfs]) ?_ (next t _ g ht hstep h)
      rw [List.length_append]
      exact microStep_seq_of_keepsSeq (hkeep g (by simp [hfs])) ht
  obtain ⟨hP, hc, ht⟩ := busy fs [] s rfl rfl hs h
  rw [hw, runSteps_append]
  exact next _ _ last ht (by rw [hc, hw]; exact stepNumber_append ..) hP

/-- A property that the environment and every micro-step of a running command keep, and accepting a word keeps, every
step keeps: a command run in one step is nothing but its micro-steps. -/
theorem step_keeps_of_microSteps {P : State → Prop}
    (agenda : ∀ s a, P s → P { s with agenda := a })
    (accepted : ∀ s c, s.seq = .idle → P s → P (accept c s))
    (written : ∀ s b, P s → P { s with curbuf := b })
    (moved : ∀ s m, P s → P { s with encs := envMove s.cfg m s.encs })
    (microStepped : ∀ s w k f, s.seq = .busy w k → stepNumber (wordSteps s.cfg w) k = some f → P s →
      P (microStep f s))
    {s t : State} (h : P s) (hs : step s = .next t) : P t := by
  refine step_keeps agenda accepted written moved ?_ microStepped h hs
  intro s w hw h
  exact runSteps_word_keeps
    (fun s k f hk hf h => microStepped (gap s) w k f hk hf (gap_keeps agenda moved h)) hw h

/-- The micro-step that `SEQ` names keeps the sequencer busy, or is the one that responds. -/
theorem keepsSeq_or_responds {c : Config} {w : Word} {k : Nat} {f : MicroStep}
    (h : stepNumber (wordSteps c w) k = some f) : KeepsSeq f ∨ Responds f := by
  obtain ⟨fs, last, hw, hkeep, hlast⟩ := wordSteps_shape c w
  have hmem := mem_of_stepNumber h
  rw [hw, List.mem_append, List.mem_singleton] at hmem
  rcases hmem with hmem | rfl
  · exact .inl (hkeep f hmem)
  · exact .inr hlast

/-- Settles O55: a micro-step leaves the core busy, or responds and clears the command's values. -/
theorem stepKeepsLocalsClean : Obligations.StepKeepsLocalsClean := by
  intro s t h hs
  refine step_keeps_of_microSteps (P := LocalsClean) (fun _ _ h => h) (fun _ _ _ _ hidle => nomatch hidle)
    (fun _ _ h => h) (fun _ _ h => h) ?_ h hs
  intro u w k f hu hf _ hidle
  rcases keepsSeq_or_responds hf with hf | hf
  · rw [microStep_seq_of_keepsSeq hf hu] at hidle
    cases hidle
  · exact (microStep_of_responds hf u).2

/-! ### The two grains -/

theorem core_run_add {m n : Nat} {s t u : State} (hm : Sys2Proof.core.run m s = .next t)
    (hn : Sys2Proof.core.run n t = .next u) : Sys2Proof.core.run (m + n) s = .next u := by
  induction m generalizing s with
  | zero =>
    cases hm
    rwa [Nat.zero_add]
  | succ m ih =>
    rw [Nat.succ_add]
    simp only [Host.Core.run] at hm ⊢
    split at hm
    · rename_i hs
      exact ih hm
    · cases hm
    · cases hm

theorem core_run_one {s t : State} (h : step s = .next t) : Sys2Proof.core.run 1 s = .next t := by
  have h' : Sys2Proof.core.step s = .next t := h
  simp only [Host.Core.run, h']

theorem mainMove_of_busy {s : State} {w : Word} {k : Nat} {f : MicroStep} (hs : s.seq = .busy w k)
    (hf : stepNumber (wordSteps s.cfg w) k = some f) : mainMove s = .next (microStep f s) := by
  simp only [mainMove, hs, hf]

/-- A host move waits while a command runs (U9). -/
theorem gap_of_host {s : State} {m : HostMove} {rest : List Move} (h : s.agenda = .host m :: rest) : gap s = s := by
  rcases s with ⟨⟩
  simp_all [gap, gapEncs, gapRest]

/-- Single steps of a busy core take the environment's moves that stand first, one by one, and then make the
micro-step that `SEQ` names: they reach what the one-step run's interleaving point and micro-step reach (R90). -/
theorem exists_run_eq_microStep_gap {s : State} {w : Word} {k : Nat} {f : MicroStep} (hs : s.seq = .busy w k)
    (hf : stepNumber (wordSteps s.cfg w) k = some f) :
    ∃ n, Sys2Proof.core.run n s = .next (microStep f (gap s)) := by
  have hbusy : s.seq ≠ .idle := by simp [hs]
  generalize ha : s.agenda = l
  induction l generalizing s with
  | nil =>
    refine ⟨1, core_run_one ?_⟩
    rw [step_busy hbusy (.inl ha), mainMove_of_busy hs hf, gap_of_nil ha]
  | cons a rest ih =>
    cases a with
    | env m =>
      obtain ⟨n, hn⟩ := ih (s := { s with encs := envMove s.cfg m s.encs, agenda := rest }) hs hf hbusy rfl
      refine ⟨1 + n, core_run_add (core_run_one (step_env ha)) ?_⟩
      rw [hn]
      simp only [gap, ha, gapEncs, gapRest]
    | main =>
      refine ⟨1, core_run_one ?_⟩
      rw [step_main ha, mainMove_of_busy (s := { s with agenda := rest }) hs hf]
      simp only [gap, ha, gapEncs, gapRest]
    | host m =>
      refine ⟨1, core_run_one ?_⟩
      rw [step_busy hbusy (.inr ⟨m, rest, ha⟩), mainMove_of_busy hs hf, gap_of_host ha]

/-- Settles O10: from the accepted word single steps reach every state the one-step run goes through, by induction
along the command's micro-steps. -/
theorem steppedRunEqualsOneStep : Obligations.SteppedRunEqualsOneStep := by
  intro s c rest hs ha
  have haccept : step s = .next (accept c { s with agenda := rest }) := step_host hs ha (by simp)
  have hrun : ∃ n, Sys2Proof.core.run n s =
      .next (runSteps (wordSteps s.cfg c) (accept c { s with agenda := rest })) := by
    refine runSteps_word_keeps (P := fun t => ∃ n, Sys2Proof.core.run n s = .next t)
      (s := accept c { s with agenda := rest }) ?_ rfl ⟨1, core_run_one haccept⟩
    rintro t k f ht hf ⟨m, hm⟩
    obtain ⟨n, hn⟩ := exists_run_eq_microStep_gap ht hf
    exact ⟨m + n, core_run_add hm hn⟩
  obtain ⟨n, hn⟩ := hrun
  exact ⟨n, _, step_issue (s := { s with agenda := .host (.issue c) :: rest }) hs rfl, hn⟩

end Sys2Proof.Machine
end


section
/-! PROOFS. The lifecycle of the motor slots (10_state.md R51): which micro-steps write a transitional state, and where
`SEQ` stands when they do. -/

namespace Sys2Proof.Machine

/-! ### Commands other than `MINIT` -/

/-- A micro-step that puts no slot into `Sleeping`, `Waking` or `Standby`. -/
def PutsNoneInTransition (f : MicroStep) : Prop :=
  ∀ s i, transitional ((f s).motor i).state = true → transitional (s.motor i).state = true

theorem putsNone_of_motors {f : MicroStep} (h : ∀ s, (f s).motors = s.motors) : PutsNoneInTransition f := by
  intro s i ht
  rwa [State.motor, h] at ht

theorem putsNone_onMotor {x : Nat} {g : MotorSlot → MotorSlot}
    (h : ∀ m, transitional (g m).state = true → transitional m.state = true) : PutsNoneInTransition (onMotor x g) := by
  intro s i ht
  rw [motor_onMotor] at ht
  split at ht
  · exact h _ ht
  · exact ht

@[simp] theorem putsNone_noChange : PutsNoneInTransition noChange := fun _ _ => id
@[simp] theorem putsNone_respond (st : Status) (d : Word) : PutsNoneInTransition (respond st d) := fun _ _ => id
@[simp] theorem putsNone_respondVal : PutsNoneInTransition respondVal := fun _ _ => id
@[simp] theorem putsNone_delay (w : Wait) : PutsNoneInTransition (delay w) := fun _ _ => id
@[simp] theorem putsNone_readPin (p : Pin) : PutsNoneInTransition (readPin p) := fun _ _ => id
@[simp] theorem putsNone_writeDuty (i : Nat) (v : Half) : PutsNoneInTransition (writeDuty i v) :=
  putsNone_onMotor (g := fun m => { m with duty := v }) fun _ => id
@[simp] theorem putsNone_writePin (p : Pin) (v : Level) : PutsNoneInTransition (writePin p v) := by
  cases p with
  | sleep i => exact putsNone_onMotor (g := fun m => { m with sleep := v }) fun _ => id
  | off i => exact putsNone_onMotor (g := fun m => { m with offp := v }) fun _ => id
  | dir i => exact putsNone_onMotor (g := fun m => { m with dir := v }) fun _ => id
  | status i => exact fun _ _ => id

theorem putsNone_setState {i : Nat} {st : Lifecycle} (h : transitional st = false) :
    PutsNoneInTransition (setState i st) :=
  putsNone_onMotor fun m ht => by simp [h] at ht

@[simp] theorem putsNone_setStateByDir (i : Nat) : PutsNoneInTransition (setStateByDir i) :=
  putsNone_onMotor fun m ht => by
    split at ht
    · cases ht
    · cases ht

/-- Only `MINIT` puts a slot into a transitional state (R51). -/
theorem putsNone_of_ne_minit {c : Config} {i : Instr} (hi : i ≠ .minit) :
    ∀ f ∈ instrSteps c i, PutsNoneInTransition f := by
  have settled : ∀ x, PutsNoneInTransition (setState x .running) ∧ PutsNoneInTransition (setState x .stopped) ∧
      PutsNoneInTransition (setState x .off) :=
    fun x => ⟨putsNone_setState rfl, putsNone_setState rfl, putsNone_setState rfl⟩
  cases i with
  | minit => exact absurd rfl hi
  | mstart | msetduty | mstop | moff | mon | mgetstate =>
    simp only [instrSteps, mstartSteps, msetdutySteps, mstopSteps, moffSteps, monSteps, mgetstateSteps,
      indexError, brakeSteps]
    split <;> simp [settled]
  | einit => exact fun f hf => putsNone_of_motors fun s => (encOp_keeps (encOp_einitSteps c f hf) s).2.1
  | egetcnt j => exact fun f hf => putsNone_of_motors fun s => (encOp_keeps (encOp_egetcntSteps c j f hf) s).2.1
  | egetpos j => exact fun f hf => putsNone_of_motors fun s => (encOp_keeps (encOp_egetposSteps c j f hf) s).2.1
  | cgetcur => exact fun f hf => putsNone_of_motors fun s => (curOp_keeps (curOp_cgetcurSteps c f hf) s).2.1
  | evtOvf | evtUdf => simp [instrSteps]

/-- So is it with every word that is not `MINIT`'s, a reserved one included. -/
theorem putsNone_of_word {c : Config} {w : Word} (hw : decodeCommand w ≠ .ok .minit) :
    ∀ f ∈ wordSteps c w, PutsNoneInTransition f := by
  cases hd : decodeCommand w with
  | ok i =>
    rw [wordSteps_of_ok hd]
    exact putsNone_of_ne_minit fun h => hw (h ▸ hd)
  | error e => simp [wordSteps_of_error hd, illegalSteps]

/-! ### `MINIT` -/

/-- The place of a micro-step in a loop of rounds of `m` micro-steps each. -/
theorem getElem?_flatMap_const {f : Nat → List MicroStep} {m : Nat} (h : ∀ k, (f k).length = m) (l : List Nat)
    (q : Nat) {r : Nat} (hr : r < m) : (l.flatMap f)[m * q + r]? = l[q]?.bind fun k => (f k)[r]? := by
  induction l generalizing q with
  | nil => simp
  | cons a l ih =>
    cases q with
    | zero => rw [List.flatMap_cons, List.getElem?_append_left (by rw [h]; omega)]; simp
    | succ q =>
      rw [List.flatMap_cons, List.getElem?_append_right (by rw [h, Nat.mul_succ]; omega), h,
        List.getElem?_cons_succ, ← ih]
      congr 1
      rw [Nat.mul_succ]
      omega

theorem stepNumber_range {fs : List MicroStep} {k : Nat} {f : MicroStep} (h : stepNumber fs k = some f) :
    1 ≤ k ∧ k ≤ fs.length := by
  cases k with
  | zero => cases h
  | succ k => exact ⟨Nat.le_add_left .., (List.getElem?_eq_some_iff.mp h).1⟩

/-- A numbered micro-step of two lists laid end to end stands in the first, or past it in the second. -/
theorem stepNumber_of_append {fs gs : List MicroStep} {k : Nat} {f : MicroStep}
    (h : stepNumber (fs ++ gs) k = some f) :
    stepNumber fs k = some f ∨ fs.length < k ∧ stepNumber gs (k - fs.length) = some f := by
  cases k with
  | zero => cases h
  | succ k =>
    by_cases hk : k < fs.length
    · exact .inl ((List.getElem?_append_left hk).symm.trans h)
    · refine .inr ⟨by omega, ?_⟩
      rw [Nat.succ_sub (by omega)]
      exact (List.getElem?_append_right (by omega)).symm.trans h

/-- Micro-step number `k` of a loop over the slots `1..n`, `m` micro-steps each. -/
theorem stepNumber_of_loop {f : Nat → List MicroStep} {m : Nat} (h : ∀ i, (f i).length = m) {n k : Nat}
    {g : MicroStep} (hk : stepNumber ((List.range n).flatMap fun q => f (q + 1)) k = some g) :
    ∃ i r, r < m ∧ k + m = m * i + r + 1 ∧ (f i)[r]? = some g := by
  obtain ⟨hk1, hkn⟩ := stepNumber_range hk
  rw [length_flatMap_const (f := fun q => f (q + 1)) fun q => h (q + 1)] at hkn
  have hm : 0 < m := Nat.pos_of_ne_zero fun h0 => by simp [h0] at hkn; omega
  obtain ⟨k, rfl⟩ : ∃ p, k = p + 1 := ⟨k - 1, by omega⟩
  have hr := Nat.mod_lt k hm
  have hdiv := Nat.div_add_mod k m
  have hat : ((List.range n).flatMap fun q => f (q + 1))[m * (k / m) + k % m]? = some g := by
    rw [hdiv]
    exact hk
  rw [getElem?_flatMap_const (f := fun q => f (q + 1)) (fun q => h (q + 1)) _ _ hr] at hat
  obtain ⟨q, hq, hg⟩ := Option.bind_eq_some_iff.mp hat
  obtain ⟨hlt, hq⟩ := List.getElem?_eq_some_iff.mp hq
  rw [List.getElem_range] at hq
  refine ⟨q + 1, k % m, hr, ?_, hg⟩
  rw [← hq, Nat.mul_succ]
  omega

theorem minitSteps_cases (c : Config) :
    minitSteps c = configError ∨ minitSteps c = noChange :: configError ∨
      minitSteps c = [noChange, noChange] ++
        ((List.range c.motorCount).flatMap (fun k => wakeSteps c (k + 1)) ++ [respond .ok 0]) := by
  unfold minitSteps
  split
  · split
    · exact .inr (.inl rfl)
    · exact .inr (.inr (List.append_assoc ..))
  · exact .inl rfl

/-- Micro-step number `k` of `MINIT`: a test or the response, which stand outside every slot's steps 1 to 9c, or the
step after the first `r` of slot `i`'s eleven, which is number `11 * i - 8 + r` (R131, log 8). -/
theorem minitSteps_at {c : Config} {k : Nat} {f : MicroStep} (h : stepNumber (minitSteps c) k = some f) :
    (PutsNoneInTransition f ∧ ∀ i, 1 ≤ i → 11 * i < k + 8 → 11 * i + 2 < k) ∨
    ∃ i r, r < 11 ∧ k + 8 = 11 * i + r ∧ (wakeSteps c i)[r]? = some f := by
  have early : ∀ fs : List MicroStep, fs.length ≤ 2 → (∀ g ∈ fs, PutsNoneInTransition g) →
      stepNumber fs k = some f → PutsNoneInTransition f ∧ ∀ i, 1 ≤ i → 11 * i < k + 8 → 11 * i + 2 < k := by
    intro fs hl hfs hk
    have hk2 := (stepNumber_range hk).2
    exact ⟨hfs f (mem_of_stepNumber hk), by omega⟩
  rcases minitSteps_cases c with e | e | e <;> rw [e] at h
  · exact .inl (early _ (by simp [configError]) (by simp [configError]) h)
  · exact .inl (early _ (by simp [configError]) (by simp [configError]) h)
  · rcases stepNumber_of_append h with h | ⟨hk, h⟩
    · exact .inl (early _ (by simp) (by simp) h)
    · have hlen := length_flatMap_const (f := fun q => wakeSteps c (q + 1)) (fun q => length_wakeSteps c (q + 1))
        (List.range c.motorCount)
      simp only [List.length_cons, List.length_nil, List.length_range] at hk h hlen
      rcases stepNumber_of_append h with h | ⟨hk', h⟩
      · obtain ⟨i, r, hr, hi, hf⟩ := stepNumber_of_loop (length_wakeSteps c) h
        exact .inr ⟨i, r, hr, by omega, hf⟩
      · have hlast := (stepNumber_range h).2
        have hf := mem_of_stepNumber h
        simp only [List.mem_singleton, List.length_singleton, hlen] at hf hk' hlast
        exact .inl ⟨by simp [hf], by omega⟩

/-- The steps of slot `i` write slot `i` only. -/
theorem wakeSteps_motor_ne {c : Config} {i k : Nat} (hk : k ≠ i) :
    ∀ f ∈ wakeSteps c i, ∀ s, (f s).motor k = s.motor k := by
  simp [wakeSteps, brakeSteps, setState, writePin, latch, startChannel, writeDuty, delay, State.motor,
    slotAt_slotMap_ne hk]

/-- Step 9c of `MINIT` leaves its slot `Stopped`, so in no transition. -/
theorem wakeSteps_last {c : Config} {i : Nat} {f : MicroStep} (h : (wakeSteps c i)[10]? = some f) (s : State) :
    transitional ((f s).motor i).state = false := by
  obtain rfl : setState i .stopped = f := Option.some.inj h
  rw [setState, motor_onMotor]
  split
  · rfl
  · rw [State.motor, slotAt_outside (by omega)]
    rfl

/-- In a legal state a slot in transition is one whose steps 1 to 9c the running `MINIT` stands among. -/
theorem LifecycleLegal.of_busy {s : State} (h : LifecycleLegal s) {w : Word} {k : Nat} (hs : s.seq = .busy w k)
    {i : Nat} (ht : transitional (s.motor i).state = true) :
    decodeCommand w = .ok .minit ∧ 1 ≤ i ∧ 11 * i < k + 8 ∧ k ≤ 11 * i + 2 := by
  obtain ⟨w', k', hs', hw, h1, h2⟩ := h i ht
  rw [hs] at hs'
  cases hs'
  refine ⟨hw, Nat.pos_of_ne_zero fun h0 => ?_, h1, h2⟩
  subst h0
  cases ht

theorem LifecycleLegal.accept {s : State} (h : LifecycleLegal s) (hs : s.seq = .idle) (c : Word) :
    LifecycleLegal (accept c s) := by
  intro i ht
  obtain ⟨w, k, hs', -⟩ := h i ht
  rw [hs] at hs'
  cases hs'

/-- A micro-step of the running command keeps the lifecycle legal: outside `MINIT`'s steps for a slot no slot is in
transition and none is put there; a step of slot `i` writes slot `i` only, which may be in transition until
step 9c. -/
theorem LifecycleLegal.microStep {s : State} (h : LifecycleLegal s) {w : Word} {k : Nat} {f : MicroStep}
    (hs : s.seq = .busy w k) (hf : stepNumber (wordSteps s.cfg w) k = some f) :
    LifecycleLegal (microStep f s) := by
  have after : ∀ i, (Machine.microStep f s).motor i = (f s).motor i := fun i => by
    simp [Machine.microStep, State.motor]
  intro i ht
  rw [after] at ht
  by_cases hw : decodeCommand w = .ok .minit
  · rw [wordSteps_of_ok hw] at hf
    rcases minitSteps_at hf with ⟨hnone, hout⟩ | ⟨x, r, hr, hk, hfx⟩
    · obtain ⟨-, hi, h1, h2⟩ := h.of_busy hs (hnone s i ht)
      exact absurd (hout i hi h1) (by omega)
    · have hmem := List.mem_of_getElem? hfx
      have hx : i = x := by
        by_contra hne
        rw [wakeSteps_motor_ne hne f hmem] at ht
        obtain ⟨-, -, h1, h2⟩ := h.of_busy hs ht
        omega
      subst hx
      have hlast : r ≠ 10 := by
        rintro rfl
        rw [wakeSteps_last hfx s] at ht
        cases ht
      exact ⟨w, k + 1, microStep_seq_of_keepsSeq (keepsSeq_wakeSteps _ i f hmem) hs, hw, by omega, by omega⟩
  · have hnone := putsNone_of_word hw f (mem_of_stepNumber hf)
    exact absurd (h.of_busy hs (hnone s i ht)).1 hw

/-- Settles O52: `MINIT`'s steps for a slot write that slot only and end it `Stopped`, and no other micro-step puts a
slot into a transitional state. -/
theorem stepKeepsLifecycleLegal : Obligations.StepKeepsLifecycleLegal := by
  intro s t h hs
  exact step_keeps_of_microSteps (P := LifecycleLegal) (fun _ _ h => h) (fun _ c hidle h => h.accept hidle c)
    (fun _ _ h => h) (fun _ _ h => h) (fun _ _ _ _ hbusy hf h => h.microStep hbusy hf) h hs

end Sys2Proof.Machine
end


section
/-! PROOFS. The true position of a channel under the moves of the reference environment (10_state.md R53,
60_exceptions.md R203 to R205). -/

namespace Sys2Proof.Machine

/-! ### A count step -/

/-- Where the counter runs and a wrap would not fall on a pending one, the guarded step is made (R203, R205). -/
theorem countGuarded_of_running {c : Config} {d : WrapDir} {e : EncSlot} (hrun : e.encRun = true)
    (hwrap : wraps c d e = true → e.uif = false) : countGuarded c d e = countStep c d e := by
  cases hw : wraps c d e with
  | false => simp [countGuarded, hrun, hw]
  | true => simp [countGuarded, hrun, hwrap hw]

/-- A count step up adds one, but from the last count it goes to 0 (R203). -/
theorem countValue_up_toNat {c : Config} {cnt : Half} (hcnt : cnt.toNat < c.modulus) (hc : c.modulus ≤ 65536) :
    (countValue c .up cnt).toNat = if cnt.toNat + 1 = c.modulus then 0 else cnt.toNat + 1 := by
  simp only [countValue, BitVec.toNat_ofNat]
  split
  · simp [*]
  · rw [Nat.mod_eq_of_lt (show cnt.toNat + 1 < c.modulus by omega), Nat.mod_eq_of_lt (by omega)]

/-- A count step down takes one away, but from 0 it goes to the last count (R203). -/
theorem countValue_down_toNat {c : Config} {cnt : Half} (hcnt : cnt.toNat < c.modulus) (hc : c.modulus ≤ 65536) :
    (countValue c .down cnt).toNat = if cnt.toNat = 0 then c.modulus - 1 else cnt.toNat - 1 := by
  simp only [countValue, BitVec.toNat_ofNat]
  split
  · rw [Nat.mod_eq_of_lt (show cnt.toNat + c.modulus - 1 < c.modulus by omega), Nat.mod_eq_of_lt (by omega)]
    omega
  · rw [show cnt.toNat + c.modulus - 1 = cnt.toNat - 1 + c.modulus by omega, Nat.add_mod_right,
      Nat.mod_eq_of_lt (show cnt.toNat - 1 < c.modulus by omega), Nat.mod_eq_of_lt (by omega)]

theorem countStep_of_wraps {c : Config} {d : WrapDir} {e : EncSlot} (h : wraps c d e = true) :
    countStep c d e = { e with cnt := countValue c d e.cnt, uif := true, wrapDir := d } := by
  simp [countStep, h]

theorem countStep_of_not_wraps {c : Config} {d : WrapDir} {e : EncSlot} (h : wraps c d e = false) :
    countStep c d e = { e with cnt := countValue c d e.cnt } := by
  simp [countStep, h]

/-- How far one count step moves the shaft (R53). -/
def shaftStep : WrapDir → Int
  | .up => 1
  | .down => -1

/-- R53: what the count loses at a wrap, the pending flag holds. -/
theorem truePosition_countStep {c : Config} {d : WrapDir} {e : EncSlot} (hcnt : e.cnt.toNat < c.modulus)
    (hc : c.modulus ≤ 65536) (hwrap : wraps c d e = true → e.uif = false) :
    truePosition c (countStep c d e) = truePosition c e + shaftStep d := by
  cases hw : wraps c d e with
  | true =>
    rw [countStep_of_wraps hw]
    cases d with
    | up =>
      have hlast : e.cnt.toNat + 1 = c.modulus := of_decide_eq_true hw
      simp only [truePosition, pend, hwrap hw, countValue_up_toNat hcnt hc, if_pos hlast, if_true, Bool.false_eq_true,
        if_false, shaftStep]
      rw [← hlast]
      push_cast
      ring
    | down =>
      have hzero : e.cnt.toNat = 0 := of_decide_eq_true hw
      simp only [truePosition, pend, hwrap hw, countValue_down_toNat hcnt hc, hzero, if_true, Bool.false_eq_true,
        if_false, shaftStep]
      rw [Nat.cast_sub (by omega)]
      push_cast
      ring
  | false =>
    rw [countStep_of_not_wraps hw]
    cases d with
    | up =>
      have hlast : e.cnt.toNat + 1 ≠ c.modulus := of_decide_eq_false hw
      simp only [truePosition, pend, countValue_up_toNat hcnt hc, hlast, if_false, shaftStep]
      push_cast
      ring
    | down =>
      have hzero : e.cnt.toNat ≠ 0 := of_decide_eq_false hw
      simp only [truePosition, pend, countValue_down_toNat hcnt hc, hzero, if_false, shaftStep]
      rw [Nat.cast_sub (by omega)]
      push_cast
      ring

/-! ### A delivery -/

theorem toInt_add_one {o : Word} (h : o.toInt + 1 ≤ 2147483647) : (o + 1).toInt = o.toInt + 1 := by
  have := o.le_toInt
  rw [BitVec.toInt_add, Int.bmod_eq_of_le] <;> simp <;> omega

theorem toInt_sub_one {o : Word} (h : -2147483648 ≤ o.toInt - 1) : (o - 1).toInt = o.toInt - 1 := by
  have := o.toInt_lt
  rw [BitVec.toInt_sub, Int.bmod_eq_of_le] <;> simp <;> omega

/-- R53: what a delivery takes from the pending flag, the overflow counter takes up, unless it wraps. -/
theorem truePosition_deliver {c : Config} {j : Nat} {e : EncSlot} (hj : encOk c j = true)
    (hmax : e.ovf.toInt + pend e ≤ 2147483647) (hmin : -2147483648 ≤ e.ovf.toInt + pend e) :
    truePosition c (deliver c j e) = truePosition c e := by
  cases hd : deliverable e with
  | false => rw [deliver_of_not hd]
  | true =>
    have huif : e.uif = true := (Bool.and_eq_true_iff.mp hd).1
    rw [deliver_of hd]
    cases hdir : e.wrapDir with
    | up =>
      have hp : pend e = 1 := by simp [pend, huif, hdir]
      rw [hp] at hmax
      simp only [truePosition, hp, hj, if_true, toInt_add_one hmax]
      simp [pend]
    | down =>
      have hp : pend e = -1 := by simp [pend, huif, hdir]
      rw [hp] at hmin
      simp only [truePosition, hp, hj, if_true, toInt_sub_one hmin]
      simp [pend, Int.sub_eq_add_neg]

/-- Settles O44: a step takes the move at the head of the agenda, and `truePosition_countStep` and
`truePosition_deliver` say what the move does to its channel. -/
theorem truePositionFollowsTheShaft : Obligations.TruePositionFollowsTheShaft := by
  refine ⟨fun s j d rest ha h1 h4 hrange hc hrun hwrap => ?_, fun s j rest ha hj hmax hmin => ?_⟩
  · refine ⟨_, step_env ha, ?_⟩
    have he : slotAt EncSlot.reset (envMove s.cfg (.count j d) s.encs) j = countStep s.cfg d (s.enc j) :=
      (slotAt_slotMap_eq h1 h4).trans (countGuarded_of_running hrun hwrap)
    simp only [State.enc, he]
    exact truePosition_countStep (hrange j) hc hwrap
  · refine ⟨_, step_env ha, ?_⟩
    obtain ⟨h1, h4⟩ := encOk_range hj
    have he : slotAt EncSlot.reset (envMove s.cfg (.deliver j) s.encs) j = deliver s.cfg j (s.enc j) :=
      slotAt_slotMap_eq h1 h4
    simp only [State.enc, he]
    exact truePosition_deliver hj hmax hmin

end Sys2Proof.Machine
end


section
/-! PROOFS. Which instruction writes which kind of state (10_state.md R49, R52), what a step that takes a word is
(R45), and the state after reset (R55). -/

namespace Sys2Proof.Machine

/-! ### The frame of each family -/

/-- Only `EINIT` has micro-steps that write an encoder slot (R91). -/
theorem encs_of_mem {c : Config} {i : Instr} (hi : i ≠ .einit) {f : MicroStep} (h : f ∈ instrSteps c i) (s : State) :
    (f s).encs = s.encs := by
  cases i with
  | einit => exact absurd rfl hi
  | egetcnt j | egetpos j =>
    simp only [instrSteps, egetcntSteps, egetposSteps, indexError] at h
    split at h <;> simp only [List.mem_cons, List.not_mem_nil, or_false] at h
    · rcases h with rfl | rfl | rfl <;> rfl
    · subst h
      rfl
  | cgetcur => exact ((curOp_blind (curOp_cgetcurSteps c f h)).keeps s).1
  | evtOvf | evtUdf => simp [instrSteps] at h
  | _ => exact ((motorOp_blind (motorOp_of_mem rfl f h)).keeps s).1

theorem motors_of_mem {c : Config} {i : Instr} (hi : i.isMotor = false) {f : MicroStep} (h : f ∈ instrSteps c i)
    (s : State) : (f s).motors = s.motors := by
  rcases op_of_mem h with ⟨hm, -⟩ | h | ⟨-, h⟩
  · rw [hi] at hm
    cases hm
  · exact (encOp_keeps h s).2.1
  · exact (curOp_keeps h s).2.1

theorem curbuf_of_mem {c : Config} {i : Instr} (hi : i ≠ .cgetcur) {f : MicroStep} (h : f ∈ instrSteps c i)
    (s : State) : (f s).curbuf = s.curbuf := by
  rcases op_of_mem h with ⟨-, h⟩ | h | ⟨hc, -⟩
  · exact (motorOp_keeps h s).2.1
  · exact (encOp_keeps h s).2.2.1
  · exact absurd hc hi

/-- A part of the state that the environment between two micro-steps, `SEQ` and every micro-step of a command leave
alone, the command leaves alone. -/
theorem runSteps_part {α : Type} {part : State → α} {fs : List MicroStep} (hgap : ∀ s, part (gap s) = part s)
    (hseq : ∀ s, part (advance s) = part s) (hf : ∀ f ∈ fs, ∀ s, part (f s) = part s) (s : State) :
    part (runSteps fs s) = part s :=
  runSteps_inv (P := fun t => part t = part s) (fun t h => (hgap t).trans h)
    (fun f hmem t h => (hseq (f t)).trans ((hf f hmem t).trans h)) rfl

/-- Settles O48: a command is its micro-steps, and each leaves alone what its component does not own. -/
theorem onlyItsFamilyWritesEachState : Obligations.OnlyItsFamilyWritesEachState := by
  intro i s
  cases he : i.isEvent with
  | true =>
    cases i <;> simp only [Instr.isEvent, Bool.false_eq_true] at he
    all_goals exact ⟨_, rfl, rfl, fun _ => rfl, fun _ => rfl, fun _ h => nomatch h⟩
  | false =>
    have hkeep := fun f (hf : f ∈ instrSteps s.cfg i) t => instrSteps_keeps hf t
    refine ⟨_, exec_command he s, ?_, fun hm => ?_, fun hc => ?_, fun hi _ => ⟨(instrSteps s.cfg i).length, ?_⟩⟩
    · exact runSteps_part (part := State.cfg) gap_cfg advance_cfg (fun f hf t => (hkeep f hf t).1) s
    · exact runSteps_part (part := State.motors) gap_motors advance_motors (fun f hf => motors_of_mem hm hf) s
    · exact runSteps_part (part := State.curbuf) gap_curbuf advance_curbuf (fun f hf => curbuf_of_mem hc hf) s
    · exact runSteps_encs (fun f hf t => ⟨(hkeep f hf t).1, (hkeep f hf t).2, encs_of_mem hi hf t⟩) s

/-! ### A step that takes a word -/

/-- Settles O6: an idle core takes the word at the head of the agenda and runs what it decodes to. -/
theorem stepRunsTheDecodedInstruction : Obligations.StepRunsTheDecodedInstruction := by
  refine ⟨fun s c i rest hs ha hd => ?_, fun s e i rest ha hd => ?_⟩
  · have hf : fetch s = some (.cmd32 c, { s with seq := .busy c 1, agenda := rest }) := by
      simp [fetch, ha, hs, accept]
    simp [step, hf, hd]
  · have hf : fetch s = some (.evt8 e, { s with agenda := rest }) := by simp [fetch, ha]
    simp [step, hf, hd]

/-- Settles O9: `step_host` at an idle core, `step_busy` at a busy one. -/
theorem commandAcceptedOnlyWhenIdle : Obligations.CommandAcceptedOnlyWhenIdle := by
  refine ⟨fun s c rest hs ha => step_host hs ha (by simp), fun s w k f hs hf ha => ?_⟩
  rw [step_busy (by simp [hs]) ha, mainMove_of_busy hs hf]

/-! ### Reset -/

theorem resetWith_motor (c : Config) (buf : Vector Word 4) (i : Nat) :
    (State.resetWith c buf).motor i = MotorSlot.reset := by
  simp [State.motor, State.resetWith]

theorem resetWith_enc (c : Config) (buf : Vector Word 4) (j : Nat) :
    (State.resetWith c buf).enc j = EncSlot.reset := by
  simp [State.enc, State.resetWith]

/-- Settles O12: every slot reads as the reset slot. -/
theorem resetStateIsTheTable : Obligations.ResetStateIsTheTable := fun c buf =>
  ⟨fun i _ _ => resetWith_motor c buf i, fun j _ _ => resetWith_enc c buf j, rfl, rfl, rfl⟩

/-- Settles O13: every slot reads as the reset slot, and the core is idle. -/
theorem resetMeetsInvariants : Obligations.ResetMeetsInvariants := by
  intro c buf hc
  refine ⟨fun i => ?_, fun i h => ?_, ⟨fun i _ => resetWith_motor c buf i, fun j _ => resetWith_enc c buf j⟩,
    fun j => ?_, fun w k h => (nomatch h), fun _ => rfl⟩
  · rw [resetWith_motor]
    exact BitVec.le_def.mpr (Nat.zero_le _)
  · rw [resetWith_motor] at h
    cases h
  · rw [resetWith_enc]
    exact hc

end Sys2Proof.Machine
end


section
/-! PROOFS. The capability calls that write (20_memory.md R72 to R84, R87), and what an event has in common with a
micro-step of the main line (R91). -/

namespace Sys2Proof.Machine

/-! ### Recorded writes -/

/-- A recorded change of one of the four motor slots: the call in the trace, and no other slot (R72, R74, R75). -/
theorem record_onMotor_effect (c : Call) {i : Nat} (g : MotorSlot → MotorSlot) (s : State) (h1 : 1 ≤ i) (h4 : i ≤ 4) :
    record c (onMotor i g s) =
        { s with motors := (record c (onMotor i g s)).motors, trace := s.trace ++ [c] } ∧
      ∀ k, (record c (onMotor i g s)).motor k = if k = i then g (s.motor k) else s.motor k := by
  refine ⟨rfl, fun k => (motor_onMotor i k g s).trans ?_⟩
  simp only [h1, h4, and_true]

/-- A recorded change of one of the four encoder slots: the call in the trace, and no other slot (R76 to R79). -/
theorem record_onEnc_effect (c : Call) {j : Nat} (g : EncSlot → EncSlot) (s : State) (h1 : 1 ≤ j) (h4 : j ≤ 4) :
    record c (onEnc j g s) =
        { s with encs := (record c (onEnc j g s)).encs, trace := s.trace ++ [c] } ∧
      ∀ k, (record c (onEnc j g s)).enc k = if k = j then g (s.enc k) else s.enc k := by
  refine ⟨rfl, fun k => (enc_onEnc j k g s).trans ?_⟩
  simp only [h1, h4, and_true]

theorem bufferAt_bufWrite {e : Nat} (he : e < 4) (x : Word) (s : State) (k : Nat) :
    (bufWrite e x s).bufferAt k = if k = e then x else s.bufferAt k := by
  have hrange : (k + 1 = e + 1 ∧ 1 ≤ e + 1 ∧ e + 1 ≤ 4) ↔ k = e := by omega
  refine (slotAt_slotMap 0 s.curbuf (fun _ => x) (e + 1) (k + 1)).trans ?_
  simp only [hrange, State.bufferAt]

/-- Settles O14: every call is a recorded change of one slot or one element. -/
theorem capabilityCallsHaveTheirEffects : Obligations.CapabilityCallsHaveTheirEffects := by
  intro s i v d x h1 h4
  refine ⟨?motor, ?enc, rfl, bufferAt_bufWrite (by omega) x s⟩
  case motor =>
    simp only [List.forall_mem_cons]
    exact ⟨record_onMotor_effect _ _ s h1 h4, record_onMotor_effect _ _ s h1 h4, record_onMotor_effect _ _ s h1 h4,
      record_onMotor_effect _ _ s h1 h4, record_onMotor_effect _ _ s h1 h4, fun _ h => nomatch h⟩
  case enc =>
    simp only [List.forall_mem_cons]
    exact ⟨record_onEnc_effect _ _ s h1 h4, record_onEnc_effect _ _ s h1 h4, record_onEnc_effect _ _ s h1 h4,
      record_onEnc_effect _ _ s h1 h4, fun _ h => nomatch h⟩

/-! ### A write done twice -/

/-- Done twice in a row it leaves the state of doing it once, but for the calls in the trace (R87). -/
def IdempotentButTrace (f : MicroStep) : Prop := ∀ s tr, { f (f s) with trace := tr } = { f s with trace := tr }

theorem slotMap_idem {α : Type} {f : α → α} (hf : ∀ x, f (f x) = f x) (b : Vector α 4) (i : Nat) :
    slotMap (slotMap b f i) f i = slotMap b f i := by
  simp only [slotMap_slotMap, hf]

theorem idempotent_record_onMotor (c : Call) (i : Nat) {g : MotorSlot → MotorSlot} (hg : ∀ m, g (g m) = g m) :
    IdempotentButTrace fun s => record c (onMotor i g s) :=
  fun s _ => by simp only [record, onMotor, slotMap_idem hg]

theorem idempotent_record_onEnc (c : Call) (j : Nat) {g : EncSlot → EncSlot} (hg : ∀ e, g (g e) = g e) :
    IdempotentButTrace fun s => record c (onEnc j g s) :=
  fun s _ => by simp only [record, onEnc, slotMap_idem hg]

theorem idempotent_writePin (p : Pin) (v : Level) : IdempotentButTrace (writePin p v) := by
  cases p with
  | sleep i => exact idempotent_record_onMotor _ i (g := fun m => { m with sleep := v }) fun _ => rfl
  | off i => exact idempotent_record_onMotor _ i (g := fun m => { m with offp := v }) fun _ => rfl
  | dir i => exact idempotent_record_onMotor _ i (g := fun m => { m with dir := v }) fun _ => rfl
  | status i => exact fun _ _ => rfl

theorem idempotent_bufWrite (e : Nat) (x : Word) : IdempotentButTrace (bufWrite e x) :=
  fun s _ => by simp only [bufWrite, record, slotMap_idem (f := fun _ => x) fun _ => rfl]

/-- Settles O15: each call writes a value that does not depend on what stood there. -/
theorem writesAreIdempotent : Obligations.WritesAreIdempotent := by
  intro s p v i d x f hf
  suffices h : IdempotentButTrace f from h s s.trace
  revert f
  simp only [List.forall_mem_cons]
  exact ⟨idempotent_writePin p v,
    idempotent_record_onMotor _ i (g := fun m => { m with pwmRun := true }) fun _ => rfl,
    idempotent_record_onMotor _ i (g := fun m => { m with duty := d }) fun _ => rfl,
    idempotent_record_onEnc _ i (g := fun e => { e with uif := false }) fun _ => rfl,
    idempotent_record_onEnc _ i (g := fun e => { e with uie := true }) fun _ => rfl,
    idempotent_record_onEnc _ i (g := fun e => { e with cnt := 0 }) fun _ => rfl,
    idempotent_record_onEnc _ i (g := fun e => { e with encRun := true }) fun _ => rfl,
    idempotent_bufWrite i x, fun _ h => nomatch h⟩

/-! ### An event and a micro-step -/

/-- An event word is the accumulator's step on one channel, or a reserved word that changes nothing (R111, R164). -/
theorem takeEventWord_cases (c : Config) (w : BitVec 8) :
    (∀ es, takeEventWord c w es = es) ∨
      ∃ j f, ∀ es, takeEventWord c w es = slotMap es (accumulate c j f) j := by
  cases h : decodeEvent w with
  | error _ => exact .inl fun es => by simp only [takeEventWord, h]
  | ok i =>
    rcases (decodeEvent_ok_iff w i).1 h with ⟨-, rfl⟩ | ⟨-, rfl⟩
    · exact .inr ⟨eidxOf w, (· + 1), fun es => by simp only [takeEventWord, h]; rfl⟩
    · exact .inr ⟨eidxOf w, (· - 1), fun es => by simp only [takeEventWord, h]; rfl⟩

/-- An event leaves every raw count (R91). -/
theorem cnt_takeEventWord (c : Config) (w : BitVec 8) (es : Vector EncSlot 4) (j : Nat) :
    (slotAt EncSlot.reset (takeEventWord c w es) j).cnt = (slotAt EncSlot.reset es j).cnt := by
  rcases takeEventWord_cases c w with h | ⟨k, f, h⟩
  · rw [h]
  · rw [h, slotAt_slotMap]
    split
    · rw [accumulate_keeps]
    · rfl

/-- A micro-step that does not look at the counters commutes with any change of them. -/
theorem EnvBlind.comm {f : MicroStep} (hf : EnvBlind f) (g : Vector EncSlot 4 → Vector EncSlot 4) (s : State) :
    f { s with encs := g s.encs } = { f s with encs := g (f s).encs } := by
  obtain ⟨hencs, hagenda⟩ := hf.keeps s
  calc f (withEnv s (g s.encs) s.agenda) = withEnv (f s) (g s.encs) s.agenda := hf ..
    _ = withEnv (f s) (g (f s).encs) (f s).agenda := by rw [hencs, hagenda]

/-- `readCounter` commutes with a change of the slots that leaves every count. -/
theorem readCounter_comm {g : Vector EncSlot 4 → Vector EncSlot 4}
    (hg : ∀ es j, (slotAt EncSlot.reset (g es) j).cnt = (slotAt EncSlot.reset es j).cnt) (j : Nat) (s : State) :
    readCounter j { s with encs := g s.encs } = { readCounter j s with encs := g (readCounter j s).encs } := by
  simp only [readCounter, State.enc, record, hg]

/-- Of the commands but `EINIT` and `EGETPOS` only `EGETCNT` looks at the counters, in its `readCounter` (R91). -/
theorem envBlind_or_readCounter {c : Config} {i : Instr} {f : MicroStep} (hinit : i ≠ .einit)
    (hpos : ∀ j, i ≠ .egetpos j) (h : f ∈ instrSteps c i) : EnvBlind f ∨ ∃ j, f = readCounter j := by
  cases i with
  | einit => exact absurd rfl hinit
  | egetpos j => exact absurd rfl (hpos j)
  | egetcnt j =>
    simp only [instrSteps, egetcntSteps, indexError] at h
    split at h <;> simp only [List.mem_cons, List.not_mem_nil, or_false] at h
    · rcases h with rfl | rfl | rfl
      exacts [.inl envBlind_noChange, .inr ⟨j, rfl⟩, .inl envBlind_respondVal]
    · exact .inl (h ▸ envBlind_respond _ _)
  | cgetcur => exact .inl (curOp_blind (curOp_cgetcurSteps c f h))
  | evtOvf | evtUdf => simp [instrSteps] at h
  | _ => exact .inl (motorOp_blind (motorOp_of_mem rfl f h))

/-- Settles O39: a micro-step does not look at the counters, or reads a count, which an event leaves. -/
theorem eventsCommuteWithMicroSteps : Obligations.EventsCommuteWithMicroSteps := by
  intro s i f e hinit hpos hf
  rcases envBlind_or_readCounter hinit hpos hf with hblind | ⟨j, rfl⟩
  · exact hblind.comm _ s
  · exact readCounter_comm (cnt_takeEventWord s.cfg e) j s

end Sys2Proof.Machine
end


section
/-! PROOFS. The decoder and the encoder are inverse to each other, and the fields a command does not use
(30_encoding.md R100 to R109, R118). -/

namespace Sys2Proof

/-! ### Decoding an encoded instruction -/

theorem idxOf_commandWord_of_lt (o : BitVec 8) {i : Nat} (d : Half) (h : i < 256) :
    idxOf (commandWord o i d) = i :=
  (idxOf_commandWord o i d).trans (Nat.mod_eq_of_lt h)

theorem eidxOf_eventWord_of_lt (o : BitVec 4) {j : Nat} (h : j < 16) : eidxOf (eventWord o j) = j :=
  (eidxOf_eventWord o j).trans (Nat.mod_eq_of_lt h)

/-- Settles O1: the word's fields read back as the operands, for an index that fits its field. -/
theorem decodeInvertsEncode : Obligations.DecodeInvertsEncode := by
  intro i h
  cases i with
  | minit | einit | cgetcur => rfl
  | mstart i d | msetduty i d | mstop i d =>
    have hi := idxOf_commandWord_of_lt (d := d) (h := of_decide_eq_true h)
    exact (decodeCommand_ok_iff _ _).2 (by simp [hi])
  | moff i | mon i | mgetstate i | egetcnt i | egetpos i =>
    have hi := idxOf_commandWord_of_lt (d := 0#16) (h := of_decide_eq_true h)
    exact (decodeCommand_ok_iff _ _).2 (by simp [hi])
  | evtOvf j | evtUdf j =>
    have hj := eidxOf_eventWord_of_lt (h := of_decide_eq_true h)
    exact (decodeEvent_ok_iff _ _).2 (by simp [hj])

/-! ### Encoding a decoded word -/

/-- The encoder keeps `OPC` and the fields the command uses, and writes the others as 0 (R104, R118). -/
theorem encode_of_decodeCommand {c : Word} {i : Instr} (h : decodeCommand c = .ok i) :
    encode i = .cmd32 (commandWord (opcOf c) (if i.usesIdx then idxOf c else 0)
      (if i.usesDuty then dutyOf c else 0)) := by
  rcases (decodeCommand_ok_iff c i).1 h with ⟨ho, rfl⟩ | ⟨ho, rfl⟩ | ⟨ho, rfl⟩ | ⟨ho, rfl⟩ | ⟨ho, rfl⟩ |
    ⟨ho, rfl⟩ | ⟨ho, rfl⟩ | ⟨ho, rfl⟩ | ⟨ho, rfl⟩ | ⟨ho, rfl⟩ | ⟨ho, rfl⟩
  all_goals
    rw [ho]
    rfl

theorem encode_of_decodeEvent {e : BitVec 8} {i : Instr} (h : decodeEvent e = .ok i) : encode i = .evt8 e := by
  rw [← eventWord_fields e]
  rcases (decodeEvent_ok_iff e i).1 h with ⟨hk, rfl⟩ | ⟨hk, rfl⟩
  all_goals
    rw [hk]
    rfl

/-- What a word decodes to carries indices read from its fields. -/
theorem wf_of_decode {p : PortWord} {i : Instr} (h : decode p = .ok i) : i.wf = true := by
  cases p with
  | cmd32 c =>
    rcases (decodeCommand_ok_iff c i).1 h with ⟨-, rfl⟩ | ⟨-, rfl⟩ | ⟨-, rfl⟩ | ⟨-, rfl⟩ | ⟨-, rfl⟩ |
      ⟨-, rfl⟩ | ⟨-, rfl⟩ | ⟨-, rfl⟩ | ⟨-, rfl⟩ | ⟨-, rfl⟩ | ⟨-, rfl⟩
    all_goals simp [Instr.wf, idxOf_lt]
  | evt8 e =>
    rcases (decodeEvent_ok_iff e i).1 h with ⟨-, rfl⟩ | ⟨-, rfl⟩
    all_goals simp [Instr.wf, eidxOf_lt]

/-- Settles O2: a word whose unused fields are 0 is the word the encoder builds from its fields. -/
theorem encodeInvertsDecode : Obligations.EncodeInvertsDecode := by
  refine ⟨fun c i h hidx hduty => ?_, fun _ _ => encode_of_decodeEvent, fun _ _ => wf_of_decode⟩
  have hi : (if i.usesIdx then idxOf c else 0) = idxOf c :=
    ite_eq_left_iff.2 fun hu => (hidx (Bool.eq_false_of_not_eq_true hu)).symm
  have hd : (if i.usesDuty then dutyOf c else 0) = dutyOf c :=
    ite_eq_left_iff.2 fun hu => (hduty (Bool.eq_false_of_not_eq_true hu)).symm
  rw [encode_of_decodeCommand h, hi, hd, commandWord_fields]

/-! ### Unused fields -/

/-- An assembler writes the fields a command does not use as 0 (R104). -/
theorem unused_fields_of_encode {i : Instr} {c : Word} (h : encode i = .cmd32 c) :
    (i.usesIdx = false → idxOf c = 0) ∧ (i.usesDuty = false → dutyOf c = 0) := by
  cases i with
  | evtOvf _ | evtUdf _ => cases h
  | _ =>
    cases h
    simp [Instr.usesIdx, Instr.usesDuty, idxOf_commandWord]

theorem usesDuty_eq_false_of_ne {i : Instr} (h : ∀ x d, i ≠ .mstart x d ∧ i ≠ .msetduty x d ∧ i ≠ .mstop x d) :
    i.usesDuty = false := by
  cases i with
  | mstart x d => exact absurd rfl (h x d).1
  | msetduty x d => exact absurd rfl (h x d).2.1
  | mstop x d => exact absurd rfl (h x d).2.2
  | _ => rfl

/-- Two words with one `OPC` that agree in the fields its command uses decode alike (R101, R104). -/
theorem decodeCommand_congr {c c' : Word} (hopc : opcOf c = opcOf c')
    (hidx : opcOf c ∉ [0x01#8, 0x10#8, 0x20#8] → idxOf c = idxOf c')
    (hduty : opcOf c ∈ [0x02#8, 0x03#8, 0x04#8] → dutyOf c = dutyOf c') : decodeCommand c' = decodeCommand c := by
  simp only [List.mem_cons, List.not_mem_nil, or_false, ← BitVec.toNat_inj (x := opcOf c)] at hidx hduty
  rw [decodeCommand, decodeCommand, ← hopc]
  -- Both words take the same row; the hypotheses equate the fields that row reads.
  split <;> simp_all

/-- Settles O3: decoding looks at no field its command does not use, and encoding writes it as 0. -/
theorem ignoredFieldsDoNotMatter : Obligations.IgnoredFieldsDoNotMatter := by
  refine ⟨fun _ _ => decodeCommand_congr, fun i c h => ?_⟩
  obtain ⟨hidx, hduty⟩ := unused_fields_of_encode h
  refine ⟨fun hi => hidx ?_, fun hi => hduty (usesDuty_eq_false_of_ne hi)⟩
  simp only [List.mem_cons, List.not_mem_nil, or_false] at hi
  rcases hi with rfl | rfl | rfl <;> rfl

/-! ### Words of the table -/

/-- A word that decodes has an `OPC` of the table (R109, R110). -/
theorem opcOf_mem_of_decodeCommand {c : Word} {i : Instr} (h : decodeCommand c = .ok i) :
    opcOf c ∈ [0x01#8, 0x02#8, 0x03#8, 0x04#8, 0x05#8, 0x06#8, 0x07#8, 0x10#8, 0x11#8, 0x12#8, 0x20#8] := by
  have hrow := (decodeCommand_ok_iff c i).1 h
  simp only [List.mem_cons]
  tauto

/-- Settles O4: eight fixed words, run through the decoder. -/
theorem tableWordsDecode : Obligations.TableWordsDecode := by
  unfold Obligations.TableWordsDecode
  decide

end Sys2Proof
end


section
/-! PROOFS. Responses and reserved words: the response as one word (30_encoding.md R106, R107), what a reserved command
or event word does (R110, R111), and which responses a command can give (R106, 60_exceptions.md R197). -/

namespace Sys2Proof.Machine

/-! ### The response as one word -/

theorem statusCode_eq_zero_iff (st : Status) : statusCode st = 0 ↔ st = .ok := by
  cases st <;> decide

/-- Settles O5: the two halves of an appended word. -/
theorem responseWordCarriesStatusAndData : Obligations.ResponseWordCarriesStatusAndData := by
  intro r
  refine ⟨BitVec.extractLsb'_append_eq_left, BitVec.extractLsb'_append_eq_right, ?_⟩
  rw [okFlag, decide_eq_true_iff, statusCode_eq_zero_iff]

/-! ### Reserved words -/

/-- What a command leaves does not depend on the `SEQ` it started with (R45). -/
theorem answered_accept (n : Nat) (c : Word) (s : State) (r : Response) (tr : List Call) :
    answered n (accept c s) r tr = answered n s r tr := by
  obtain ⟨hencs, hagenda⟩ := gaps_congr n (s := accept c s) (t := s) rfl rfl rfl
  apply State.ext <;> simp [answered, hencs, hagenda]

/-- Settles O7: the word's one micro-step responds. -/
theorem reservedCommandRespondsIllegal : Obligations.ReservedCommandRespondsIllegal := by
  intro s c rest hs ha hopc
  cases hd : decodeCommand c with
  | ok i => exact absurd (opcOf_mem_of_decodeCommand hd) hopc
  | error e => rw [step_issue hs ha, wordSteps_of_error hd, illegalSteps, runSteps_respond, answered_accept]

/-- A word with a reserved `KIND` has no effect on the accumulators, nor has one for a channel that is not configured
(R111, R164). -/
theorem takeEventWord_of_reserved {c : Config} {e : BitVec 8}
    (h : kindOf e ≠ 1 ∧ kindOf e ≠ 2 ∨ encOk c (eidxOf e) = false) (es : Vector EncSlot 4) :
    takeEventWord c e es = es := by
  have keeps : ∀ f, kindOf e = 1 ∨ kindOf e = 2 →
      slotMap es (accumulate c (eidxOf e) f) (eidxOf e) = es := fun f hk =>
    slotMap_id _ _ (accumulate_of_not_ok (h.resolve_left fun hn => hk.elim hn.1 hn.2) f) _
  cases hd : decodeEvent e with
  | error _ => simp only [takeEventWord, hd]
  | ok i =>
    rcases (decodeEvent_ok_iff e i).1 hd with ⟨hk, rfl⟩ | ⟨hk, rfl⟩
    · simp only [takeEventWord, hd]
      exact keeps _ (.inl hk)
    · simp only [takeEventWord, hd]
      exact keeps _ (.inr hk)

/-- Settles O8: the step is the event word's effect on the accumulators, which is none. -/
theorem reservedEventChangesNothing : Obligations.ReservedEventChangesNothing := by
  intro s e rest ha h
  rw [step_env ha, envMove, takeEventWord_of_reserved h]

/-! ### The one response of a command -/

/-- `f` presents one response to `i`: of a status its row of R197 has, with no data where `i` returns none (R106). -/
def AnswersFor (i : Instr) (f : MicroStep) : Prop :=
  ∀ s, ∃ r, (f s).responses = s.responses ++ [r] ∧ mayReturn i r.status = true ∧
    (r.status ≠ .ok ∨ returnsData i = false → r.data = 0)

theorem answersFor_respond {i : Instr} {st : Status} (h : mayReturn i st = true) : AnswersFor i (respond st 0) :=
  fun _ => ⟨_, rfl, h, fun _ => rfl⟩

theorem answersFor_respondVal {i : Instr} (h : mayReturn i .ok = true) (hd : returnsData i = true) :
    AnswersFor i respondVal :=
  fun _ => ⟨_, rfl, h, fun hn => by simp [hd] at hn⟩

theorem answersFor_respondPass : AnswersFor .cgetcur respondPass := fun s => by
  refine ⟨_, rfl, ?_, fun _ => rfl⟩
  show mayReturn .cgetcur (passStatus s.locals.fail) = true
  cases s.locals.fail <;> rfl

/-- The last micro-step of a command is a response the command can give (R197). -/
theorem instrSteps_getLast? (c : Config) {i : Instr} (h : i.isEvent = false) :
    ∃ f, (instrSteps c i).getLast? = some f ∧ AnswersFor i f := by
  cases i with
  | evtOvf _ | evtUdf _ => cases h
  | mstart | msetduty | mstop | moff | mon =>
    simp only [instrSteps, mstartSteps, msetdutySteps, mstopSteps, moffSteps, monSteps, indexError]
    split <;> exact ⟨_, rfl, answersFor_respond rfl⟩
  | mgetstate | egetcnt | egetpos =>
    simp only [instrSteps, mgetstateSteps, egetcntSteps, egetposSteps, indexError]
    split
    · exact ⟨_, rfl, answersFor_respondVal rfl rfl⟩
    · exact ⟨_, rfl, answersFor_respond rfl⟩
  | minit =>
    simp only [instrSteps, minitSteps, configError]
    split
    · split
      · exact ⟨_, rfl, answersFor_respond rfl⟩
      · exact ⟨_, List.getLast?_concat, answersFor_respond rfl⟩
    · exact ⟨_, rfl, answersFor_respond rfl⟩
  | einit =>
    simp only [instrSteps, einitSteps, configError]
    split
    · exact ⟨_, List.getLast?_concat, answersFor_respond rfl⟩
    · exact ⟨_, rfl, answersFor_respond rfl⟩
  | cgetcur =>
    simp only [instrSteps, cgetcurSteps, configError]
    split
    · split
      · exact ⟨_, rfl, answersFor_respond rfl⟩
      · exact ⟨_, List.getLast?_concat, answersFor_respondPass⟩
    · exact ⟨_, rfl, answersFor_respond rfl⟩

/-- Settles O47: the last micro-step of a command is its one response. -/
theorem oneResponsePerCommand : Obligations.OneResponsePerCommand := by
  intro i s
  cases he : i.isEvent with
  | true =>
    cases i <;> simp only [Instr.isEvent, Bool.false_eq_true] at he
    all_goals exact ⟨_, rfl, fun _ => ⟨rfl, rfl⟩, nofun⟩
  | false =>
    refine ⟨_, exec_command he s, nofun, fun _ => ?_⟩
    obtain ⟨fs, f, hshape, hkeep, hresp⟩ := instrSteps_shape s.cfg he
    obtain ⟨g, hlast, hg⟩ := instrSteps_getLast? s.cfg he
    obtain rfl : f = g := Option.some.inj (by rw [← hlast, hshape, List.getLast?_concat])
    have hpre : (runSteps fs s).responses = s.responses :=
      runSteps_part gap_responses advance_responses (fun g hg t => (hkeep g hg t).2) s
    obtain ⟨r, hr, hmay, hdata⟩ := hg (gap (runSteps fs s))
    rw [hshape, runSteps_append]
    refine ⟨r, ?_, hmay, hdata, (microStep_of_responds hresp _).1⟩
    calc (microStep f (gap (runSteps fs s))).responses
        = (f (gap (runSteps fs s))).responses := advance_responses _
      _ = s.responses ++ [r] := by rw [hr, gap_responses, hpre]

end Sys2Proof.Machine
end


section
/-! PROOFS. What a run of MotorDriver micro-steps writes to a slot, which calls it makes and what it leaves alone
(40_motor.md R131 to R137). -/

namespace Sys2Proof.Machine

/-! ### One micro-step as a write of one slot -/

/-- What a micro-step does to its motor slot, and the calls it makes. -/
structure SlotWrite where
  write : MotorSlot → MotorSlot
  calls : List Call

/-- `f` does `w` to slot `i` and nothing else. -/
def Performs (i : Nat) (f : MicroStep) (w : SlotWrite) : Prop :=
  ∀ s, f s = { s with motors := slotMap s.motors w.write i, trace := s.trace ++ w.calls }

theorem performs_noChange (i : Nat) : Performs i noChange ⟨id, []⟩ := fun s => by
  simp only [noChange, slotMap_id _ _ (fun _ => rfl : ∀ m : MotorSlot, id m = m), List.append_nil]

theorem performs_onMotor (i : Nat) (g : MotorSlot → MotorSlot) : Performs i (onMotor i g) ⟨g, []⟩ := fun s => by
  simp only [onMotor, List.append_nil]

theorem performs_setState (i : Nat) (st : Lifecycle) :
    Performs i (setState i st) ⟨fun m => { m with state := st }, []⟩ :=
  performs_onMotor i _

theorem performs_setStateByDir (i : Nat) :
    Performs i (setStateByDir i) ⟨fun m => { m with state := if m.dir = 1 then .running else .stopped }, []⟩ :=
  performs_onMotor i _

theorem performs_delay (i : Nat) (w : Wait) : Performs i (delay w) ⟨id, [.delay w]⟩ := fun s => by
  simp only [delay, record, slotMap_id _ _ (fun _ => rfl : ∀ m : MotorSlot, id m = m)]

theorem performs_sleepPin (i : Nat) (v : Level) :
    Performs i (writePin (.sleep i) v) ⟨fun m => { m with sleep := v }, [.writePin (.sleep i) v]⟩ := fun _ => rfl

theorem performs_offPin (i : Nat) (v : Level) :
    Performs i (writePin (.off i) v) ⟨fun m => { m with offp := v }, [.writePin (.off i) v]⟩ := fun _ => rfl

theorem performs_dirPin (i : Nat) (v : Level) :
    Performs i (writePin (.dir i) v) ⟨fun m => { m with dir := v }, [.writePin (.dir i) v]⟩ := fun _ => rfl

theorem performs_startChannel (i : Nat) :
    Performs i (startChannel i) ⟨fun m => { m with pwmRun := true }, [.startChannel i]⟩ := fun _ => rfl

theorem performs_writeDuty (i : Nat) (v : Half) :
    Performs i (writeDuty i v) ⟨fun m => { m with duty := v }, [.writeDuty i v]⟩ := fun _ => rfl

/-- Two operations in one micro-step. -/
theorem Performs.comp {i : Nat} {f g : MicroStep} {v w : SlotWrite} (hf : Performs i f v) (hg : Performs i g w) :
    Performs i (fun s => g (f s)) ⟨fun m => w.write (v.write m), v.calls ++ w.calls⟩ := fun s => by
  simp only [hf s, hg _, slotMap_slotMap, List.append_assoc]

/-! ### Micro-steps in a row -/

/-- What writes made one after the other leave of a slot. -/
def slotAfter (ws : List SlotWrite) (m : MotorSlot) : MotorSlot := ws.foldl (fun m w => w.write m) m

/-- The calls of writes made one after the other. -/
def callsOf (ws : List SlotWrite) : List Call := ws.flatMap SlotWrite.calls

/-- Micro-steps that do `ws` to slot `i`, one each. -/
abbrev PerformAll (i : Nat) (fs : List MicroStep) (ws : List SlotWrite) : Prop := List.Forall₂ (Performs i) fs ws

theorem Performs.microStep_motors {i : Nat} {f : MicroStep} {w : SlotWrite} (h : Performs i f w) (s : State) :
    (microStep f (gap s)).motors = slotMap s.motors w.write i := by
  rw [microStep, advance_motors, h, gap_motors]

theorem PerformAll.motors {i : Nat} {fs : List MicroStep} {ws : List SlotWrite} (h : PerformAll i fs ws) (s : State) :
    (runSteps fs s).motors = slotMap s.motors (slotAfter ws) i := by
  induction h generalizing s with
  | nil => exact (slotMap_id _ _ (fun _ => rfl) _).symm
  | cons hf _ ih => rw [runSteps, ih, hf.microStep_motors, slotMap_slotMap]; rfl

/-- A run of micro-steps on a slot of the array writes that slot only. -/
theorem PerformAll.motor {i : Nat} {fs : List MicroStep} {ws : List SlotWrite} (h : PerformAll i fs ws) (h1 : 1 ≤ i)
    (h4 : i ≤ 4) (s : State) (k : Nat) :
    (runSteps fs s).motor k = if k = i then slotAfter ws (s.motor i) else s.motor k := by
  rw [State.motor, h.motors]
  split
  · rename_i hk
    rw [hk, slotAt_slotMap_eq h1 h4]
    rfl
  · rename_i hk
    rw [slotAt_slotMap_ne hk]
    rfl

/-! ### What such a run leaves alone -/

/-- `t` is `s` after `n` interleaving points and the calls `cs`; but for the motor slots and `SEQ` nothing else has
changed. -/
def OnlyMotors (n : Nat) (s t : State) (cs : List Call) : Prop :=
  ∃ q, t = { gaps n s with seq := q, motors := t.motors, trace := s.trace ++ cs }

theorem onlyMotors_refl (s : State) : OnlyMotors 0 s s [] := ⟨s.seq, by simp only [List.append_nil]; rfl⟩

theorem OnlyMotors.trans {m n : Nat} {s t u : State} {cs ds : List Call} (h : OnlyMotors m s t cs)
    (h' : OnlyMotors n t u ds) : OnlyMotors (m + n) s u (cs ++ ds) := by
  obtain ⟨q, ht⟩ := h
  obtain ⟨q', hu⟩ := h'
  have henv := gaps_congr n (s := t) (t := gaps m s) (by rw [ht]) (by rw [ht]) (by rw [ht])
  refine ⟨q', hu.trans ?_⟩
  rw [gaps_eq n t, henv.1, henv.2, gaps_add, gaps_eq n (gaps m s), ht]
  simp only [List.append_assoc]

theorem Performs.onlyMotors {i : Nat} {f : MicroStep} {w : SlotWrite} (h : Performs i f w) (s : State) :
    OnlyMotors 1 s (microStep f (gap s)) w.calls := by
  refine ⟨(microStep f (gap s)).seq, ?_⟩
  apply State.ext <;> simp [microStep, h (gap s), gaps]

theorem PerformAll.onlyMotors {i : Nat} {fs : List MicroStep} {ws : List SlotWrite} (h : PerformAll i fs ws)
    (s : State) : OnlyMotors fs.length s (runSteps fs s) (callsOf ws) := by
  induction h generalizing s with
  | nil => exact onlyMotors_refl s
  | cons hf _ ih =>
    rw [List.length_cons, Nat.add_comm]
    exact (hf.onlyMotors s).trans (ih _)

/-- The response after such a run (R23). -/
theorem OnlyMotors.respond {n : Nat} {s t : State} {cs : List Call} (h : OnlyMotors n s t cs) (st : Status) (d : Word) :
    runSteps [respond st d] t = { answered (n + 1) s ⟨st, d⟩ cs with motors := t.motors } := by
  obtain ⟨q, ht⟩ := h
  have henv := gaps_congr 1 (s := t) (t := gaps n s) (by rw [ht]) (by rw [ht]) (by rw [ht])
  rw [runSteps_respond, answered, answered, gaps_add, gaps_eq 1 t, henv.1, henv.2, gaps_eq 1 (gaps n s), ht]
  simp only [gaps_responses, List.append_nil]

end Sys2Proof.Machine
end


section
/-! PROOFS. The indexed MotorDriver commands (40_motor.md R133 to R138). -/

namespace Sys2Proof.Machine

/-! ### The shape they share -/

/-- A command that fails its index check (R130). -/
theorem exec_of_indexError {i : Instr} {s : State} (he : i.isEvent = false) (h : instrSteps s.cfg i = indexError) :
    exec i s = .next (answered 1 s ⟨.indexOutOfRange, 0⟩ []) := by
  rw [exec_command he, h, indexError, runSteps_respond]

/-- A command of writes to one configured slot: that slot is as the writes leave it, the calls are theirs in order,
the response is `OK`, and nothing else changes. -/
theorem exec_of_performAll {i : Instr} {s : State} {x : Nat} {fs : List MicroStep} {ws : List SlotWrite}
    (he : i.isEvent = false) (hx : motorOk s.cfg x = true) (hi : instrSteps s.cfg i = fs ++ [respond .ok 0])
    (h : PerformAll x fs ws) :
    ∃ t, exec i s = .next t ∧
      (∀ k, t.motor k = if k = x then slotAfter ws (s.motor x) else s.motor k) ∧
      t = { answered (fs.length + 1) s ⟨.ok, 0⟩ (callsOf ws) with motors := t.motors } := by
  obtain ⟨h1, h4⟩ := motorOk_range hx
  have hrun := (h.onlyMotors s).respond .ok 0
  refine ⟨_, exec_command he s, ?_⟩
  rw [hi, runSteps_append, hrun]
  exact ⟨h.motor h1 h4 s, rfl⟩

/-! ### The commands -/

/-- Settles O19: the writes of steps 1 to 5. -/
theorem mstartDrivesForward : Obligations.MstartDrivesForward := by
  intro s i d
  refine ⟨rfl, fun hi => exec_of_indexError rfl (by simp [instrSteps, mstartSteps, hi]), fun hi => ?_⟩
  obtain ⟨t, ht, hslot, hframe⟩ := exec_of_performAll (i := .mstart i d) rfl hi
    (fs := [noChange, noChange, writeDuty i (clamp s.cfg d), delay .settle, writePin (.off i) 0, writePin (.dir i) 1,
      setState i .running]) (by simp [instrSteps, mstartSteps, hi])
    (.cons (performs_noChange i) <| .cons (performs_noChange i) <| .cons (performs_writeDuty i _) <|
      .cons (performs_delay i _) <| .cons (performs_offPin i _) <| .cons (performs_dirPin i _) <|
      .cons (performs_setState i _) .nil)
  refine ⟨t, ht, ?_, hslot, hframe⟩
  rw [hslot, if_pos rfl]
  exact clamp_toNat s.cfg d

/-- Settles O20: its one write is the duty register. -/
theorem msetdutyChangesDutyOnly : Obligations.MsetdutyChangesDutyOnly := by
  intro s i d
  refine ⟨rfl, fun hi => exec_of_indexError rfl (by simp [instrSteps, msetdutySteps, hi]), fun hi => ?_⟩
  obtain ⟨t, ht, hslot, hframe⟩ := exec_of_performAll (i := .msetduty i d) rfl hi
    (fs := [noChange, writeDuty i (clamp s.cfg d)]) (by simp [instrSteps, msetdutySteps, hi])
    (.cons (performs_noChange i) <| .cons (performs_writeDuty i _) .nil)
  refine ⟨t, ht, ?_, hslot, hframe⟩
  rw [hslot, if_pos rfl]
  exact clamp_toNat s.cfg d

/-- `MSTOP`'s three writes, which are also step 9 of `MINIT` (R131, R135). -/
theorem performAll_brakeSteps (i : Nat) (v : Half) : PerformAll i (brakeSteps i v)
    [⟨fun m => { m with dir := 0 }, [.writePin (.dir i) 0]⟩, ⟨fun m => { m with duty := v }, [.writeDuty i v]⟩,
      ⟨fun m => { m with state := .stopped }, []⟩] :=
  .cons (performs_dirPin i _) <| .cons (performs_writeDuty i _) <| .cons (performs_setState i _) .nil

/-- Settles O21: the writes of `brakeSteps`. -/
theorem mstopRemovesDrive : Obligations.MstopRemovesDrive := by
  intro s i d
  refine ⟨rfl, fun hi => exec_of_indexError rfl (by simp [instrSteps, mstopSteps, hi]), fun hi => ?_⟩
  obtain ⟨t, ht, hslot, hframe⟩ := exec_of_performAll (i := .mstop i d) rfl hi
    (fs := noChange :: brakeSteps i (clamp s.cfg d)) (by simp [instrSteps, mstopSteps, hi])
    (.cons (performs_noChange i) (performAll_brakeSteps i _))
  refine ⟨t, ht, ?_, hslot, hframe⟩
  rw [hslot, if_pos rfl]
  exact clamp_toNat s.cfg d

/-- Settles O22: its two writes are the OFF pin and the lifecycle state. -/
theorem moffCoasts : Obligations.MoffCoasts := by
  intro s i
  refine ⟨rfl, fun hi => exec_of_indexError rfl (by simp [instrSteps, moffSteps, hi]), fun hi => ?_⟩
  exact exec_of_performAll (i := .moff i) rfl hi (fs := [noChange, writePin (.off i) 1, setState i .off])
    (by simp [instrSteps, moffSteps, hi])
    (.cons (performs_noChange i) <| .cons (performs_offPin i _) <| .cons (performs_setState i _) .nil)

/-- Settles O23: its two writes are the OFF pin and the lifecycle state the direction latch selects. -/
theorem monFollowsTheDirectionLatch : Obligations.MonFollowsTheDirectionLatch := by
  intro s i
  refine ⟨rfl, fun hi => exec_of_indexError rfl (by simp [instrSteps, monSteps, hi]), fun hi => ?_⟩
  exact exec_of_performAll (i := .mon i) rfl hi (fs := [noChange, writePin (.off i) 0, setStateByDir i])
    (by simp [instrSteps, monSteps, hi])
    (.cons (performs_noChange i) <| .cons (performs_offPin i _) <| .cons (performs_setStateByDir i) .nil)

/-- A draw takes the first given answer, if there is one. -/
theorem draw_snd {α : Type} (free : Nat → α) (f : Feed α) : (draw free f).2 = ⟨f.given.tail, f.taken + 1⟩ := by
  rcases f with ⟨_ | ⟨a, r⟩, n⟩ <;> rfl

/-- Settles O24: the response carries the value its one draw left. -/
theorem mgetstateReturnsThePinLevel : Obligations.MgetstateReturnsThePinLevel := by
  intro s i
  refine ⟨rfl, fun hi => exec_of_indexError rfl (by simp [instrSteps, mgetstateSteps, hi]), fun hi => ⟨_, rfl, ?_⟩⟩
  have hsteps : instrSteps s.cfg (.mgetstate i) = [noChange, readPin (.status i), respondVal] := by
    simp [instrSteps, mgetstateSteps, hi]
  rw [exec_command rfl, hsteps]
  congr 1
  apply State.ext <;>
    simp [runSteps, microStep, advance_seq, noChange, readPin, respondVal, answered, gaps, draw_snd]

end Sys2Proof.Machine
end


section
/-! PROOFS. `MINIT` (40_motor.md R131, R132): slot by slot, micro-step by micro-step. -/

namespace Sys2Proof.Machine

/-! ### One slot -/

/-- What the eleven micro-steps for slot `i` do (R131 steps 1 to 9c). -/
def wakeWrites (c : Config) (i : Nat) : List SlotWrite :=
  [⟨fun m => { m with state := .sleeping }, []⟩,
   ⟨fun m => { m with sleep := 1, state := .waking }, [.writePin (.sleep i) 1]⟩,
   ⟨id, [.delay .wake]⟩,
   ⟨fun m => { m with sleep := 0 }, [.writePin (.sleep i) 0]⟩,
   ⟨id, [.delay .pulse]⟩,
   ⟨fun m => { m with sleep := 1, state := .standby }, [.writePin (.sleep i) 1]⟩,
   ⟨fun m => { m with pwmRun := true }, [.startChannel i]⟩,
   ⟨fun m => { m with offp := 0 }, [.writePin (.off i) 0]⟩,
   ⟨fun m => { m with dir := 0 }, [.writePin (.dir i) 0]⟩,
   ⟨fun m => { m with duty := halfDuty c }, [.writeDuty i (halfDuty c)]⟩,
   ⟨fun m => { m with state := .stopped }, []⟩]

theorem performAll_wakeSteps (c : Config) (i : Nat) : PerformAll i (wakeSteps c i) (wakeWrites c i) :=
  .cons (performs_setState i _) <|
  .cons ((performs_sleepPin i 1).comp (performs_setState i .waking)) <|
  .cons (performs_delay i _) <|
  .cons (performs_sleepPin i _) <|
  .cons (performs_delay i _) <|
  .cons ((performs_sleepPin i 1).comp (performs_setState i .standby)) <|
  .cons (performs_startChannel i) <|
  .cons (performs_offPin i _) <|
  performAll_brakeSteps i (halfDuty c)

theorem slotAfter_wakeWrites (c : Config) (i : Nat) (m : MotorSlot) : slotAfter (wakeWrites c i) m = wokenSlot c := rfl

theorem callsOf_wakeWrites (c : Config) (i : Nat) : callsOf (wakeWrites c i) = wakeTrace c i := rfl

/-- Part-way through its micro-steps the slot is in the lifecycle state the step number says (D11). -/
theorem slotAfter_take_wakeWrites_state (c : Config) (i : Nat) (m : MotorSlot) {r : Nat} (hr : r ≤ 11) :
    (slotAfter ((wakeWrites c i).take r) m).state = wakeState m.state r := by
  interval_cases r <;> rfl

/-! ### The loop over the slots -/

/-- The micro-steps of `MINIT` for the slots `1..n`. -/
def wakeLoop (c : Config) (n : Nat) : List MicroStep := (List.range n).flatMap fun k => wakeSteps c (k + 1)

theorem wakeLoop_succ (c : Config) (n : Nat) : wakeLoop c (n + 1) = wakeLoop c n ++ wakeSteps c (n + 1) := by
  simp [wakeLoop, List.range_succ]

theorem length_wakeLoop (c : Config) (n : Nat) : (wakeLoop c n).length = 11 * n := by
  rw [wakeLoop, length_flatMap_const (fun k => length_wakeSteps c (k + 1)), List.length_range]

/-- The loop over fewer slots is the start of the loop over more. -/
theorem exists_wakeLoop_eq_append (c : Config) {m n : Nat} (h : m ≤ n) :
    ∃ rest, wakeLoop c n = wakeLoop c m ++ rest := by
  induction n, h using Nat.le_induction with
  | base => exact ⟨[], (List.append_nil _).symm⟩
  | succ n _ ih =>
    obtain ⟨rest, e⟩ := ih
    exact ⟨rest ++ wakeSteps c (n + 1), by rw [wakeLoop_succ, e, List.append_assoc]⟩

/-- The slots brought up are woken, the others as they were. -/
theorem runSteps_wakeLoop_motor (c : Config) {n : Nat} (hn : n ≤ 4) (s : State) (k : Nat) :
    (runSteps (wakeLoop c n) s).motor k = if 1 ≤ k ∧ k ≤ n then wokenSlot c else s.motor k := by
  induction n with
  | zero =>
    rw [if_neg (by omega)]
    rfl
  | succ n ih =>
    rw [wakeLoop_succ, runSteps_append, (performAll_wakeSteps c (n + 1)).motor (by omega) hn, slotAfter_wakeWrites,
      ih (by omega)]
    grind

theorem onlyMotors_wakeLoop (c : Config) (n : Nat) (s : State) :
    OnlyMotors (wakeLoop c n).length s (runSteps (wakeLoop c n) s)
      ((List.range n).flatMap fun k => wakeTrace c (k + 1)) := by
  induction n with
  | zero => exact onlyMotors_refl s
  | succ n ih =>
    have hslot := (performAll_wakeSteps c (n + 1)).onlyMotors (runSteps (wakeLoop c n) s)
    rw [callsOf_wakeWrites] at hslot
    rw [wakeLoop_succ, runSteps_append, List.length_append, List.range_succ, List.flatMap_append,
      List.flatMap_singleton]
    exact ih.trans hslot

/-! ### The command -/

/-- The two tests of `MINIT` that pass (R131 P1, P2). -/
def testsPassed : List MicroStep := [noChange, noChange]

theorem performAll_testsPassed : PerformAll 0 testsPassed [⟨id, []⟩, ⟨id, []⟩] :=
  .cons (performs_noChange 0) <| .cons (performs_noChange 0) .nil

theorem runSteps_testsPassed_motor (s : State) (k : Nat) : (runSteps testsPassed s).motor k = s.motor k := by
  rw [State.motor, performAll_testsPassed.motors, slotMap_zero]
  rfl

theorem minitSteps_of_ok {c : Config} (hn : motorCountOk c = true) (ha : adcCountMismatch c = false) :
    minitSteps c = testsPassed ++ wakeLoop c c.motorCount ++ [respond .ok 0] := by
  simp [minitSteps, hn, ha, testsPassed, wakeLoop]

theorem motorCount_le_four {c : Config} (h : motorCountOk c = true) : c.motorCount ≤ 4 := by
  simp only [motorCountOk, Bool.and_eq_true, decide_eq_true_eq] at h
  exact h.2

/-- Settles O16: the tests, the loop over the slots and the response, one after the other. -/
theorem minitWakesEveryConfiguredSlot : Obligations.MinitWakesEveryConfiguredSlot := by
  intro s
  refine ⟨rfl, fun hn => ?badCount, fun hn ha => ?badConversionCount, fun hn ha => ?ok⟩
  case badCount =>
    rw [exec_command rfl, instrSteps, minitSteps, hn]
    exact congrArg _ (runSteps_respond ..)
  case badConversionCount =>
    rw [exec_command rfl, instrSteps, minitSteps, hn, ha]
    exact congrArg _ (runSteps_noChange_respond ..)
  case ok =>
    refine ⟨_, exec_command rfl s, ?_⟩
    have hrun := (performAll_testsPassed.onlyMotors s).trans (onlyMotors_wakeLoop s.cfg s.cfg.motorCount _)
    have hlen : testsPassed.length + (wakeLoop s.cfg s.cfg.motorCount).length + 1 = 3 + 11 * s.cfg.motorCount := by
      rw [length_wakeLoop, testsPassed, List.length_cons, List.length_singleton]
      omega
    rw [instrSteps, minitSteps_of_ok hn ha, runSteps_append, runSteps_append, hrun.respond, hlen]
    refine ⟨fun i => ?_, rfl⟩
    exact (runSteps_wakeLoop_motor s.cfg (motorCount_le_four hn) _ i).trans (by rw [runSteps_testsPassed_motor]; rfl)

/-- What has been done of a successful `MINIT` after `r` micro-steps of slot `k + 1` (log 8). -/
theorem minitSteps_take {c : Config} (hn : motorCountOk c = true) (ha : adcCountMismatch c = false) {k r : Nat}
    (hk : k < c.motorCount) (hr : r ≤ 11) :
    (minitSteps c).take (2 + 11 * k + r) = testsPassed ++ wakeLoop c k ++ (wakeSteps c (k + 1)).take r := by
  obtain ⟨rest, e⟩ := exists_wakeLoop_eq_append c hk
  have hdone : (testsPassed ++ wakeLoop c k).length = 2 + 11 * k := by
    rw [List.length_append, length_wakeLoop]
    rfl
  have hall : minitSteps c = testsPassed ++ wakeLoop c k ++ (wakeSteps c (k + 1) ++ (rest ++ [respond .ok 0])) := by
    rw [minitSteps_of_ok hn ha, e, wakeLoop_succ]
    simp only [List.append_assoc]
  rw [hall, ← hdone, List.take_length_add_append, List.take_append_of_le_length (by rw [length_wakeSteps]; exact hr)]

/-- Settles O17: the slots before are brought up by the loop so far, and the micro-steps of slot `i` write slot `i`
only. -/
theorem minitBringsSlotsUpInOrder : Obligations.MinitBringsSlotsUpInOrder := by
  intro s i r hn ha h1 hi hr
  refine ⟨_, rfl, ?_⟩
  obtain ⟨x, rfl⟩ : ∃ x, i = x + 1 := ⟨i - 1, by omega⟩
  have h4 := motorCount_le_four hn
  have hslot : PerformAll (x + 1) ((wakeSteps s.cfg (x + 1)).take r) ((wakeWrites s.cfg (x + 1)).take r) :=
    List.forall₂_take r (performAll_wakeSteps s.cfg (x + 1))
  have hmotor : ∀ k, (runSteps ((minitSteps s.cfg).take (2 + 11 * x + r)) s).motor k =
      if k = x + 1 then slotAfter ((wakeWrites s.cfg (x + 1)).take r) (s.motor (x + 1))
      else if 1 ≤ k ∧ k ≤ x then wokenSlot s.cfg else s.motor k := by
    intro k
    rw [minitSteps_take hn ha hi hr, runSteps_append, runSteps_append, hslot.motor (by omega) (by omega)]
    simp only [runSteps_wakeLoop_motor s.cfg (show x ≤ 4 by omega), runSteps_testsPassed_motor]
    rw [if_neg (show ¬(1 ≤ x + 1 ∧ x + 1 ≤ x) by omega)]
  rw [Nat.add_sub_cancel]
  refine ⟨fun k hk1 hki => ?_, fun k hik => ?_, ?_⟩
  · rw [hmotor, if_neg (by omega), if_pos (by omega)]
  · rw [hmotor, if_neg (by omega), if_neg (by omega)]
  · rw [hmotor, if_pos rfl, slotAfter_take_wakeWrites_state _ _ _ hr]

/-! ### The delays -/

theorem delayTime_append (c : Config) (tr tr' : List Call) :
    delayTime c (tr ++ tr') = delayTime c tr + delayTime c tr' := by
  induction tr with
  | nil => exact (Nat.zero_add _).symm
  | cons a tr ih => cases a <;> simp [delayTime, ih, Nat.add_assoc]

theorem delayTime_wakeTrace (c : Config) (i : Nat) : delayTime c (wakeTrace c i) = c.tWake + c.tPulse := rfl

/-- Settles O18: each slot's calls hold one `T_WAKE` and one `T_PULSE`. -/
theorem minitWaitsForEverySlot : Obligations.MinitWaitsForEverySlot := by
  intro s hn ha
  obtain ⟨-, -, -, hok⟩ := minitWakesEveryConfiguredSlot s
  obtain ⟨t, ht, -, hframe⟩ := hok hn ha
  refine ⟨t, _, ht, by rw [hframe, answered], ?_⟩
  generalize s.cfg.motorCount = n
  induction n with
  | zero => exact (Nat.zero_mul _).symm
  | succ n ih =>
    rw [List.range_succ, List.flatMap_append, delayTime_append, ih, List.flatMap_singleton, delayTime_wakeTrace,
      Nat.succ_mul]

end Sys2Proof.Machine
end


section
/-! PROOFS. The lifecycle states (40_motor.md R140, R141): no instruction tests one, and they say what the
bridges do. -/

namespace Sys2Proof.Machine

/-! ### States that differ in lifecycle states only -/

/-- Slots that differ in their lifecycle state at most. -/
def SameButState (m m' : MotorSlot) : Prop := { m with state := .uninitialized } = { m' with state := .uninitialized }

/-- Where slots `a` and `b` have become `m` and `m'`: these differ in their lifecycle state at most, and there only if
each still has the one it had. -/
def SlotTwin (a b m m' : MotorSlot) : Prop :=
  SameButState m m' ∧ (m.state = m'.state ∨ m.state = a.state ∧ m'.state = b.state)

/-- Where states `a` and `b` have become `s` and `t`: these differ in motor slots at most, slot by slot as `SlotTwin`
says. -/
def Twin (a b s t : State) : Prop :=
  t = { s with motors := t.motors } ∧ ∀ k, SlotTwin (a.motor k) (b.motor k) (s.motor k) (t.motor k)

theorem motor_forgetLifecycle (s : State) (k : Nat) :
    (forgetLifecycle s).motor k = { s.motor k with state := .uninitialized } := by
  cases k with
  | zero => rfl
  | succ k => by_cases hk : k < 4 <;> simp [State.motor, slotAt, forgetLifecycle, hk, MotorSlot.reset]

theorem twin_of_forgetLifecycle {s t : State} (h : forgetLifecycle s = forgetLifecycle t) : Twin s t s t := by
  refine ⟨?_, fun k => ⟨?_, .inr ⟨rfl, rfl⟩⟩⟩
  · have hrest : ∀ u : State, { forgetLifecycle u with motors := t.motors } = { u with motors := t.motors } :=
      fun _ => rfl
    exact (hrest t).symm.trans (h ▸ hrest s)
  · rw [SameButState, ← motor_forgetLifecycle, ← motor_forgetLifecycle, h]

theorem Twin.forgetLifecycle {a b s t : State} (h : Twin a b s t) : forgetLifecycle s = forgetLifecycle t := by
  obtain ⟨hrest, hslot⟩ := h
  have hmotors : (Machine.forgetLifecycle s).motors = (Machine.forgetLifecycle t).motors :=
    slots_ext (d := MotorSlot.reset) fun k _ _ =>
      (motor_forgetLifecycle s k).trans ((hslot k).1.trans (motor_forgetLifecycle t k).symm)
  rw [hrest] at hmotors ⊢
  simpa only [Machine.forgetLifecycle, State.mk.injEq, true_and, and_true] using hmotors

/-! ### What does not look at a lifecycle state -/

/-- A change of state that neither reads nor writes the motor slots. -/
def MotorBlind (f : State → State) : Prop := ∀ s b, f { s with motors := b } = { f s with motors := b }

/-- A change of a slot that does not look at its lifecycle state: it keeps it, or writes one that the other fields
decide. -/
def StateBlind (g : MotorSlot → MotorSlot) : Prop :=
  ∀ m m', SameButState m m' → SameButState (g m) (g m') ∧
    ((g m).state = (g m').state ∨ (g m).state = m.state ∧ (g m').state = m'.state)

theorem SameButState.dir {m m' : MotorSlot} (h : SameButState m m') : m.dir = m'.dir :=
  (congrArg MotorSlot.dir h :)

/-- A write of another field, of a value that is not taken from the slot. -/
theorem stateBlind_of_field {g : MotorSlot → MotorSlot} (hstate : ∀ m, (g m).state = m.state)
    (hg : ∀ m, { g m with state := .uninitialized } = g { m with state := .uninitialized }) : StateBlind g :=
  fun m m' h => ⟨by rw [SameButState, hg, hg, h], .inr ⟨hstate m, hstate m'⟩⟩

theorem MotorBlind.motors {f : State → State} (h : MotorBlind f) (s : State) : (f s).motors = s.motors := by
  rw [h s s.motors]

theorem Twin.of_motorBlind {f : State → State} (hf : MotorBlind f) {a b s t : State} (h : Twin a b s t) :
    Twin a b (f s) (f t) := by
  obtain ⟨hrest, hslot⟩ := h
  refine ⟨?_, fun k => ?_⟩
  · rw [hf.motors, ← hf, ← hrest]
  · simpa only [State.motor, hf.motors] using hslot k

theorem Twin.of_performs {i : Nat} {f : MicroStep} {w : SlotWrite} (hf : Performs i f w) (hw : StateBlind w.write)
    {a b s t : State} (h : Twin a b s t) : Twin a b (f s) (f t) := by
  obtain ⟨hrest, hslot⟩ := h
  refine ⟨?_, fun k => ?_⟩
  · rw [hf s, hf t, hrest]
  · simp only [State.motor, hf s, hf t, slotAt_slotMap]
    split
    · obtain ⟨hsame, hstate⟩ := hw _ _ (hslot k).1
      refine ⟨hsame, ?_⟩
      rcases hstate with e | ⟨e, e'⟩
      · exact .inl e
      · exact (hslot k).2.imp (fun h => e.trans (h.trans e'.symm)) fun h => ⟨e.trans h.1, e'.trans h.2⟩
    · exact hslot k

/-! ### The micro-steps -/

theorem motorBlind_advance : MotorBlind advance := by
  intro s b
  simp only [advance]
  split <;> rfl

/-- A micro-step that does not touch the motor slots, or is a write of one that does not look at its lifecycle
state (R141). -/
def LifecycleBlind (f : MicroStep) : Prop := MotorBlind f ∨ ∃ i w, Performs i f w ∧ StateBlind w.write

theorem motorOp_lifecycleBlind {c : Config} {f : MicroStep} (h : MotorOp c f) : LifecycleBlind f := by
  cases h with
  | noChange | respond | respondVal | delay | readPin => exact .inl fun _ _ => rfl
  | setState i st => exact .inr ⟨i, _, performs_setState i st, fun m m' h => ⟨h, .inl rfl⟩⟩
  | setStateByDir i =>
    refine .inr ⟨i, _, performs_setStateByDir i, fun m m' h => ⟨h, .inl ?_⟩⟩
    simp only [h.dir]
  | sleepPin i v => exact .inr ⟨i, _, performs_sleepPin i v, stateBlind_of_field (fun _ => rfl) fun _ => rfl⟩
  | offPin i v => exact .inr ⟨i, _, performs_offPin i v, stateBlind_of_field (fun _ => rfl) fun _ => rfl⟩
  | dirPin i v => exact .inr ⟨i, _, performs_dirPin i v, stateBlind_of_field (fun _ => rfl) fun _ => rfl⟩
  | wakePin i v st =>
    exact .inr ⟨i, _, (performs_sleepPin i v).comp (performs_setState i st),
      fun m m' h => ⟨(congrArg (fun m : MotorSlot => { m with sleep := v }) h :), .inl rfl⟩⟩
  | startChannel i => exact .inr ⟨i, _, performs_startChannel i, stateBlind_of_field (fun _ => rfl) fun _ => rfl⟩
  | writeDuty i v => exact .inr ⟨i, _, performs_writeDuty i v, stateBlind_of_field (fun _ => rfl) fun _ => rfl⟩

theorem encOp_motorBlind {c : Config} {f : MicroStep} (h : EncOp c f) : MotorBlind f := by
  cases h <;> exact fun _ _ => rfl

theorem curOp_motorBlind {f : MicroStep} (h : CurOp f) : MotorBlind f := by
  cases h with
  | readValueIfOk =>
    intro s b
    by_cases hok : s.locals.ok = true <;> simp [readValueIfOk, hok, record]
  | bufWriteIfOk e =>
    intro s b
    by_cases hok : s.locals.ok = true <;> simp [bufWriteIfOk, hok, bufWrite, record]
  | failIfNotOk =>
    intro s b
    by_cases hok : s.locals.ok = true <;> simp [failIfNotOk, hok]
  | noChange | respond | clearFail | startConversion | poll | respondPass => exact fun _ _ => rfl

theorem lifecycleBlind_of_mem {c : Config} {i : Instr} {f : MicroStep} (h : f ∈ instrSteps c i) :
    LifecycleBlind f := by
  rcases op_of_mem h with ⟨-, h⟩ | h | ⟨-, h⟩
  · exact motorOp_lifecycleBlind h
  · exact .inl (encOp_motorBlind h)
  · exact .inl (curOp_motorBlind h)

theorem Twin.of_lifecycleBlind {f : MicroStep} (hf : LifecycleBlind f) {a b s t : State} (h : Twin a b s t) :
    Twin a b (f s) (f t) := by
  obtain hf | ⟨i, w, hf, hw⟩ := hf
  · exact h.of_motorBlind hf
  · exact h.of_performs hf hw

theorem Twin.runSteps {fs : List MicroStep} (hfs : ∀ f ∈ fs, LifecycleBlind f) {a b s t : State}
    (h : Twin a b s t) : Twin a b (runSteps fs s) (runSteps fs t) := by
  induction fs generalizing s t with
  | nil => exact h
  | cons f fs ih =>
    have hgap : Twin a b (gap s) (gap t) := h.of_motorBlind (f := gap) fun _ _ => rfl
    have hf : Twin a b (f (gap s)) (f (gap t)) := hgap.of_lifecycleBlind (hfs f (by simp))
    exact ih (fun g hg => hfs g (by simp [hg])) (hf.of_motorBlind motorBlind_advance)

/-- Settles O26: the two runs stay twins, micro-step by micro-step. -/
theorem noCommandTestsTheLifecycle : Obligations.NoCommandTestsTheLifecycle := by
  intro i s t h
  have hst := twin_of_forgetLifecycle h
  suffices hrun : ∃ s' t', exec i s = .next s' ∧ exec i t = .next t' ∧ Twin s t s' t' by
    obtain ⟨s', t', hs', ht', htwin⟩ := hrun
    exact ⟨s', t', hs', ht', htwin.forgetLifecycle, fun k => (htwin.2 k).2⟩
  cases he : i.isEvent with
  | true =>
    cases i <;> simp only [Instr.isEvent, Bool.false_eq_true] at he
    case evtOvf j =>
      exact ⟨_, _, rfl, rfl,
        hst.of_motorBlind (f := fun s => { s with encs := overflowEvent s.cfg j s.encs }) fun _ _ => rfl⟩
    case evtUdf j =>
      exact ⟨_, _, rfl, rfl,
        hst.of_motorBlind (f := fun s => { s with encs := underflowEvent s.cfg j s.encs }) fun _ _ => rfl⟩
  | false =>
    have hcfg : t.cfg = s.cfg := by rw [hst.1]
    refine ⟨_, _, exec_command he s, exec_command he t, ?_⟩
    rw [hcfg]
    exact hst.runSteps fun f hf => lifecycleBlind_of_mem hf

/-! ### The lifecycle state and the bridge -/

/-- Awake, and the lifecycle state says what the bridge does (R140). -/
def AwakeAndAgrees (m : MotorSlot) : Prop := m.sleep = 1 ∧ agreesWithBridge m

theorem awakeAndAgrees_off {m : MotorSlot} (hsleep : m.sleep = 1) :
    AwakeAndAgrees { m with state := .off, offp := 1 } := by
  simp [AwakeAndAgrees, agreesWithBridge, bridge, hsleep]

/-- With the OFF pin clear the direction latch decides between driving and braking. -/
theorem awakeAndAgrees_of_dir {m : MotorSlot} (hsleep : m.sleep = 1) (hoff : m.offp = 0)
    (hstate : m.state = if m.dir = 1 then .running else .stopped) : AwakeAndAgrees m := by
  by_cases hdir : m.dir = 1#1 <;> simp [AwakeAndAgrees, agreesWithBridge, bridge, hsleep, hoff, hstate, hdir]

theorem bridgeAgrees_of_motors_eq {s t : State} (h : BridgeAgrees s) (hc : t.cfg = s.cfg) (hm : t.motors = s.motors) :
    BridgeAgrees t := by
  simpa only [BridgeAgrees, State.motor, hc, hm] using h

/-- An instruction that only writes one slot, and leaves it awake and agreeing. -/
theorem bridgeAgrees_of_slot {s t : State} {x : Nat} {m : MotorSlot} (h : BridgeAgrees s) (hc : t.cfg = s.cfg)
    (ht : ∀ k, t.motor k = if k = x then m else s.motor k) (hm : AwakeAndAgrees m) : BridgeAgrees t := by
  intro k hk
  rw [ht]
  split
  · exact hm
  · exact h k (hc ▸ hk)

theorem bridgeAgrees_answered {s : State} (h : BridgeAgrees s) {n : Nat} {r : Response} {tr : List Call} :
    BridgeAgrees (answered n s r tr) :=
  bridgeAgrees_of_motors_eq h (gaps_cfg n s) (gaps_motors n s)

/-- A successful `MINIT` leaves every configured slot awake and braking, `Stopped`. -/
theorem exec_minit_bridgeAgrees {s : State} (hn : motorCountOk s.cfg = true) (ha : adcCountMismatch s.cfg = false) :
    ∃ t, exec .minit s = .next t ∧ BridgeAgrees t := by
  obtain ⟨-, -, -, hok⟩ := minitWakesEveryConfiguredSlot s
  obtain ⟨t, ht, hslot, hframe⟩ := hok hn ha
  have hc : t.cfg = s.cfg := by rw [hframe]; exact gaps_cfg ..
  refine ⟨t, ht, fun k hk => ?_⟩
  have hrange : 1 ≤ k ∧ k ≤ s.cfg.motorCount := by
    simp only [hc, motorOk, Bool.and_eq_true, decide_eq_true_eq] at hk
    exact ⟨hk.1.2, hk.2⟩
  rw [hslot, if_pos hrange]
  exact awakeAndAgrees_of_dir rfl rfl rfl

/-- An indexed command that leaves the slot it writes awake and agreeing. -/
theorem exec_keeps_bridgeAgrees_of_indexed {i : Instr} {s : State} {x n n' : Nat} {r r' : Response} {tr tr' : List Call}
    {m : MotorSlot} (h : BridgeAgrees s) (hbad : motorOk s.cfg x = false → exec i s = .next (answered n s r tr))
    (hok : motorOk s.cfg x = true → ∃ t, exec i s = .next t ∧
      (∀ k, t.motor k = if k = x then m else s.motor k) ∧ t = { answered n' s r' tr' with motors := t.motors })
    (hm : motorOk s.cfg x = true → AwakeAndAgrees m) : ∃ t, exec i s = .next t ∧ BridgeAgrees t := by
  cases hx : motorOk s.cfg x with
  | false => exact ⟨_, hbad hx, bridgeAgrees_answered h⟩
  | true =>
    obtain ⟨t, ht, hslot, hframe⟩ := hok hx
    exact ⟨t, ht, bridgeAgrees_of_slot h (by rw [hframe]; exact gaps_cfg ..) hslot (hm hx)⟩

/-- Every instruction keeps a slot's lifecycle state saying what its bridge does, but `MSTOP` on a coasting slot. -/
theorem exec_keeps_bridgeAgrees {i : Instr} {s : State} (h : BridgeAgrees s)
    (hstop : ∀ x d, i = .mstop x d → motorOk s.cfg x = true → (s.motor x).offp = 0) :
    ∃ t, exec i s = .next t ∧ BridgeAgrees t := by
  cases i with
  | minit =>
    obtain ⟨-, hcount, hconv, -⟩ := minitWakesEveryConfiguredSlot s
    cases hn : motorCountOk s.cfg with
    | false => exact ⟨_, hcount hn, bridgeAgrees_answered h⟩
    | true =>
      cases ha : adcCountMismatch s.cfg with
      | true => exact ⟨_, hconv hn ha, bridgeAgrees_answered h⟩
      | false => exact exec_minit_bridgeAgrees hn ha
  | mstart x d =>
    obtain ⟨-, hbad, hok⟩ := mstartDrivesForward s x d
    refine exec_keeps_bridgeAgrees_of_indexed h hbad (fun hx => (hok hx).imp fun _ => And.imp_right And.right)
      fun hx => ?_
    exact awakeAndAgrees_of_dir (h x hx).1 rfl rfl
  | msetduty x d =>
    obtain ⟨-, hbad, hok⟩ := msetdutyChangesDutyOnly s x d
    refine exec_keeps_bridgeAgrees_of_indexed h hbad (fun hx => (hok hx).imp fun _ => And.imp_right And.right)
      fun hx => ?_
    exact h x hx
  | mstop x d =>
    obtain ⟨-, hbad, hok⟩ := mstopRemovesDrive s x d
    refine exec_keeps_bridgeAgrees_of_indexed h hbad (fun hx => (hok hx).imp fun _ => And.imp_right And.right)
      fun hx => ?_
    exact awakeAndAgrees_of_dir (h x hx).1 (hstop x d rfl hx) rfl
  | moff x =>
    obtain ⟨-, hbad, hok⟩ := moffCoasts s x
    exact exec_keeps_bridgeAgrees_of_indexed h hbad hok fun hx => awakeAndAgrees_off (h x hx).1
  | mon x =>
    obtain ⟨-, hbad, hok⟩ := monFollowsTheDirectionLatch s x
    exact exec_keeps_bridgeAgrees_of_indexed h hbad hok fun hx => awakeAndAgrees_of_dir (h x hx).1 rfl rfl
  | mgetstate x =>
    obtain ⟨-, hbad, hok⟩ := mgetstateReturnsThePinLevel s x
    cases hx : motorOk s.cfg x with
    | false => exact ⟨_, hbad hx, bridgeAgrees_answered h⟩
    | true =>
      obtain ⟨v, -, ht⟩ := hok hx
      exact ⟨_, ht, bridgeAgrees_of_motors_eq h (gaps_cfg ..) (gaps_motors ..)⟩
  | einit | egetcnt | egetpos | cgetcur | evtOvf | evtUdf =>
    obtain ⟨t, ht, hc, hm, -⟩ := onlyItsFamilyWritesEachState _ s
    exact ⟨t, ht, bridgeAgrees_of_motors_eq h hc (hm rfl)⟩

/-- Settles O27: the base case and the step. -/
theorem lifecycleAgreesWithBridge : Obligations.LifecycleAgreesWithBridge :=
  ⟨fun _ => exec_minit_bridgeAgrees, fun _ _ => exec_keeps_bridgeAgrees⟩

end Sys2Proof.Machine
end


section
/-! PROOFS. The position of a channel and the events that count into it (41_encoder.md R163 to R166). -/

namespace Sys2Proof.Machine

/-! ### The position (R163) -/

/-- The position as a sum of words: 32 bits are kept of it, so each part may be cut to 32 bits first. -/
theorem position_eq_mul_add (c : Config) (e : EncSlot) :
    position c e = BitVec.ofInt 32 c.modulus * e.ovf + BitVec.ofInt 32 e.cnt.toNat := by
  rw [position, BitVec.ofInt_add, BitVec.ofInt_mul, BitVec.ofInt_toInt]

/-- A word made of an integer in its signed range reads as that integer. -/
theorem toInt_ofInt_of_range {x : Int} (hmin : -2147483648 ≤ x) (hmax : x ≤ 2147483647) :
    (BitVec.ofInt 32 x).toInt = x := by
  rw [BitVec.toInt_ofInt]
  exact Int.bmod_eq_of_le (by norm_num; omega) (by norm_num; omega)

/-- What the position read lacks of the true one is the pending wrap (R53, R241). -/
theorem truePosition_eq_add_pend (c : Config) (e : EncSlot) :
    truePosition c e = (c.modulus : Int) * e.ovf.toInt + e.cnt.toNat + c.modulus * pend e := by
  rw [truePosition]
  ring

/-- Settles O34: the three values of the pending wrap. -/
theorem positionIsTrueUpToThePendingWrap : Obligations.PositionIsTrueUpToThePendingWrap := by
  intro c e hmin hmax
  rw [truePosition_eq_add_pend, position, toInt_ofInt_of_range hmin hmax]
  refine ⟨fun h => ?_, fun h hdir => ?_, fun h hdir => ?_⟩
  · simp [pend, h]
  · simp [pend, h, hdir]
  · simp [pend, h, hdir]

/-! ### One event (R164 to R166) -/

/-- A write of an entry that is there, with the index of the entry written in place of the index read. -/
theorem slotAt_slotMap_of_range {α : Type} {d : α} {b : Vector α 4} {f : α → α} {i : Nat} (h1 : 1 ≤ i) (h4 : i ≤ 4)
    (k : Nat) : slotAt d (slotMap b f i) k = if k = i then f (slotAt d b i) else slotAt d b k := by
  split
  · rename_i hk
    rw [hk, slotAt_slotMap_eq h1 h4]
  · rename_i hk
    exact slotAt_slotMap_ne hk

/-- An event on a channel that is not configured changes nothing (R164). -/
theorem slotMap_accumulate_of_not_ok {c : Config} {j : Nat} (h : encOk c j = false) (f : Word → Word)
    (es : Vector EncSlot 4) : slotMap es (accumulate c j f) j = es :=
  slotMap_id _ _ (accumulate_of_not_ok h f) _

/-- An event on a configured channel changes the overflow counter of that channel only (R164). -/
theorem slotAt_accumulate_of_ok {c : Config} {j : Nat} (h : encOk c j = true) (f : Word → Word)
    (es : Vector EncSlot 4) (k : Nat) :
    slotAt EncSlot.reset (slotMap es (accumulate c j f) j) k =
      if k = j then { slotAt EncSlot.reset es j with ovf := f (slotAt EncSlot.reset es j).ovf }
      else slotAt EncSlot.reset es k := by
  obtain ⟨h1, h4⟩ := encOk_range h
  rw [slotAt_slotMap_of_range h1 h4, accumulate_of_ok h]

/-- Settles O35: the accumulator's step with `+ 1`. -/
theorem overflowEventIncrements : Obligations.OverflowEventIncrements := by
  intro s j
  refine ⟨rfl, fun h => ?_, fun h => ⟨_, rfl, slotAt_accumulate_of_ok h (· + 1) s.encs, rfl⟩⟩
  rw [exec, execEvtOvf, overflowEvent, countUp, slotMap_accumulate_of_not_ok h]

/-- Settles O36: the accumulator's step with `- 1`. -/
theorem underflowEventDecrements : Obligations.UnderflowEventDecrements := by
  intro s j
  refine ⟨rfl, fun h => ?_, fun h => ⟨_, rfl, slotAt_accumulate_of_ok h (· - 1) s.encs, rfl⟩⟩
  rw [exec, execEvtUdf, underflowEvent, countDown, slotMap_accumulate_of_not_ok h]

end Sys2Proof.Machine
end


section
/-! PROOFS. The two queries of the Encoder component, and the counting law that a run of events and queries obeys
(41_encoder.md R162, R163, R167). -/

namespace Sys2Proof.Machine

/-! ### The queries (R162, R163) -/

/-- One read of channel `j`, and the value `val` makes of it kept for the response. -/
def readSlot (val : Config → EncSlot → Word) (j : Nat) : MicroStep := fun s =>
  record (.readCounter j (s.enc j).cnt) { s with locals := { s.locals with val := val s.cfg (s.enc j) } }

theorem readCounter_eq_readSlot (j : Nat) : readCounter j = readSlot (fun _ e => e.cnt.setWidth 32) j := rfl

theorem readPosition_eq_readSlot (j : Nat) : readPosition j = readSlot position j := rfl

/-- A query responds with the value of its one read, made after two interleaving points, and writes nothing. -/
theorem runSteps_query (val : Config → EncSlot → Word) (j : Nat) (s : State) :
    runSteps [noChange, readSlot val j, respondVal] s =
      answered 3 s ⟨.ok, val s.cfg ((gaps 2 s).enc j)⟩ [.readCounter j ((gaps 2 s).enc j).cnt] := by
  apply State.ext <;>
    simp [runSteps, microStep, advance_seq, noChange, readSlot, respondVal, answered, gaps, State.enc]

theorem exec_egetcnt_of_ok {s : State} {j : Nat} (h : encOk s.cfg j = true) :
    exec (.egetcnt j) s = .next (answered 3 s ⟨.ok, ((gaps 2 s).enc j).cnt.setWidth 32⟩
      [.readCounter j ((gaps 2 s).enc j).cnt]) := by
  rw [exec_command rfl, instrSteps, egetcntSteps, if_pos h, readCounter_eq_readSlot, runSteps_query]

/-- Settles O32: a query whose value is the count. -/
theorem egetcntReturnsTheRawCount : Obligations.EgetcntReturnsTheRawCount := by
  intro s j
  refine ⟨rfl, fun h => exec_of_indexError rfl (by simp [instrSteps, egetcntSteps, h]), fun h => ⟨_, rfl, ?_⟩⟩
  exact exec_egetcnt_of_ok h

/-- Settles O33: a query whose value is the position. -/
theorem egetposReturnsThePosition : Obligations.EgetposReturnsThePosition := by
  intro s j
  refine ⟨rfl, fun h => exec_of_indexError rfl (by simp [instrSteps, egetposSteps, h]), fun h => ⟨_, rfl, ?_⟩⟩
  rw [exec_command rfl, instrSteps, egetposSteps, if_pos h, readPosition_eq_readSlot, runSteps_query, position]

/-! ### The counting law (R167) -/

/-- The overflow events of a run on channel `j` less its underflow events. -/
def netWraps (j : Nat) (l : List Instr) : Int := (overflowsOn j l : Int) - (underflowsOn j l : Int)

theorem netWraps_cons (j : Nat) (i : Instr) (l : List Instr) : netWraps j (i :: l) = netWraps j [i] + netWraps j l := by
  simp only [netWraps, overflowsOn, underflowsOn, List.countP_cons, List.countP_nil]
  push_cast
  ring

/-- Each step of the overflow counter moves the position by `MODULUS` (R163). -/
theorem position_add_ovf (c : Config) (e : EncSlot) (x : Int) :
    position c { e with ovf := e.ovf + BitVec.ofInt 32 x } = position c e + BitVec.ofInt 32 (c.modulus * x) := by
  simp only [position_eq_mul_add, BitVec.ofInt_mul]
  ring

/-- An event, as the change it makes to the position of channel `j`: `x` moduli on its own channel `k` (R165, R166). -/
theorem position_accumulate {c : Config} {j : Nat} (hj : encOk c j = true) {f : Word → Word} {x : Int}
    (hf : ∀ o, f o = o + BitVec.ofInt 32 x) (k : Nat) (es : Vector EncSlot 4) :
    position c (slotAt EncSlot.reset (slotMap es (accumulate c k f) k) j) =
      position c (slotAt EncSlot.reset es j) + BitVec.ofInt 32 (c.modulus * if k = j then x else 0) := by
  by_cases hk : k = j
  · subst hk
    rw [slotAt_accumulate_of_ok hj, if_pos rfl, if_pos rfl, hf, position_add_ovf]
  · rw [slotAt_slotMap_ne (Ne.symm hk), if_neg hk]
    simp

/-- One instruction of the run: the build and the empty agenda stay, and the position of channel `j` moves by the
wraps the instruction counts there. -/
theorem exec_counts {s : State} {j : Nat} {i : Instr} (hj : encOk s.cfg j = true) (ha : s.agenda = [])
    (hi : i = .egetcnt j ∨ ∃ k, i = .evtOvf k ∨ i = .evtUdf k) :
    ∃ t, exec i s = .next t ∧ t.cfg = s.cfg ∧ t.agenda = [] ∧
      position s.cfg (t.enc j) = position s.cfg (s.enc j) + BitVec.ofInt 32 (s.cfg.modulus * netWraps j [i]) := by
  rcases hi with rfl | ⟨k, rfl | rfl⟩
  · refine ⟨_, exec_egetcnt_of_ok hj, ?_⟩
    simp [answered, gaps_of_nil _ ha, ha, State.enc, netWraps, overflowsOn, underflowsOn]
  · refine ⟨_, rfl, rfl, ha, (position_accumulate hj (f := (· + 1)) (x := 1) (fun _ => rfl) k s.encs).trans ?_⟩
    by_cases hk : k = j <;> simp [State.enc, netWraps, overflowsOn, underflowsOn, hk]
  · refine ⟨_, rfl, rfl, ha, (position_accumulate hj (f := (· - 1)) (x := -1) (fun _ => ?_) k s.encs).trans ?_⟩
    · exact sub_eq_add_neg _ _
    · by_cases hk : k = j <;> simp [State.enc, netWraps, overflowsOn, underflowsOn, hk]

/-- The whole run, in words: 32 bits of the position move exactly, whatever the range. -/
theorem runInstrs_counts {j : Nat} {l : List Instr} {s : State} (hj : encOk s.cfg j = true) (ha : s.agenda = [])
    (hl : ∀ i ∈ l, i = .egetcnt j ∨ ∃ k, i = .evtOvf k ∨ i = .evtUdf k) :
    ∃ t, runInstrs l s = .next t ∧ t.cfg = s.cfg ∧
      position s.cfg (t.enc j) = position s.cfg (s.enc j) + BitVec.ofInt 32 (s.cfg.modulus * netWraps j l) := by
  induction l generalizing s with
  | nil => exact ⟨s, rfl, rfl, by simp [netWraps, overflowsOn, underflowsOn]⟩
  | cons i l ih =>
    rw [List.forall_mem_cons] at hl
    obtain ⟨hi, hl⟩ := hl
    obtain ⟨u, hu, hc, hau, hpos⟩ := exec_counts hj ha hi
    obtain ⟨t, ht, hct, hpost⟩ := ih (s := u) (hc ▸ hj) hau hl
    refine ⟨t, by rw [runInstrs, hu]; exact ht, hct.trans hc, ?_⟩
    rw [hc, hpos] at hpost
    rw [hpost, netWraps_cons j i l, mul_add, BitVec.ofInt_add, add_assoc]

/-- Settles O37: the words move exactly, and a signed word in range is its integer. -/
theorem countingLaw : Obligations.CountingLaw := by
  intro s j l hj ha hl
  obtain ⟨t, ht, hc, hpos⟩ := runInstrs_counts hj ha hl
  refine ⟨t, ht, fun hmin hmax => ?_⟩
  have hword : position t.cfg (t.enc j) =
      BitVec.ofInt 32 ((position s.cfg (s.enc j)).toInt + s.cfg.modulus * netWraps j l) := by
    rw [hc, hpos, BitVec.ofInt_add, BitVec.ofInt_toInt]
  rw [hword]
  exact toInt_ofInt_of_range hmin hmax

end Sys2Proof.Machine
end


section
/-! PROOFS. `EINIT` (41_encoder.md R161): channel by channel in descending order, with the environment moving between
its micro-steps. -/

namespace Sys2Proof.Machine

/-! ### The loop over the channels -/

/-- The micro-steps of `EINIT` for the channels `n` down to 1. -/
def encInitLoop (n : Nat) : List MicroStep := (List.range n).reverse.flatMap fun k => encInitSteps (k + 1)

/-- The calls of the loop. -/
def encInitLoopTrace (n : Nat) : List Call := (List.range n).reverse.flatMap fun k => encInitTrace (k + 1)

theorem encInitLoop_succ (n : Nat) : encInitLoop (n + 1) = encInitSteps (n + 1) ++ encInitLoop n := by
  simp [encInitLoop, List.range_succ]

theorem encInitLoopTrace_succ (n : Nat) : encInitLoopTrace (n + 1) = encInitTrace (n + 1) ++ encInitLoopTrace n := by
  simp [encInitLoopTrace, List.range_succ]

theorem length_encInitLoop (n : Nat) : (encInitLoop n).length = 4 * n := by
  rw [encInitLoop, length_flatMap_const (fun k => length_encInitSteps (k + 1)), List.length_reverse, List.length_range]

/-- Where in the loop the micro-steps of channel `j` stand (log 8). -/
theorem encInitLoop_getElem? {j n r : Nat} (h1 : 1 ≤ j) (hj : j ≤ n) (hr : r < 4) :
    (encInitLoop n)[4 * (n - j) + r]? = (encInitSteps j)[r]? := by
  induction n with
  | zero => omega
  | succ n ih =>
    rw [encInitLoop_succ]
    by_cases hn : j = n + 1
    · rw [hn, Nat.sub_self, Nat.mul_zero, Nat.zero_add, List.getElem?_append_left (by rw [length_encInitSteps]; exact hr)]
    · rw [List.getElem?_append_right (by rw [length_encInitSteps]; omega), length_encInitSteps, ← ih (by omega)]
      congr 1
      omega

theorem einitSteps_of_ok {c : Config} (h : encCountOk c = true) :
    einitSteps c = noChange :: (encInitLoop c.encCount ++ [respond .ok 0]) := by
  simp [einitSteps, h, encInitLoop]

theorem length_einitSteps_of_ok {c : Config} (h : encCountOk c = true) :
    (einitSteps c).length = 2 + 4 * c.encCount := by
  rw [einitSteps_of_ok h, List.length_cons, List.length_append, length_encInitLoop, List.length_singleton]
  omega

theorem encCount_le_four {c : Config} (h : encCountOk c = true) : c.encCount ≤ 4 := by
  simp only [encCountOk, Bool.and_eq_true, decide_eq_true_eq] at h
  exact h.2

/-! ### What it leaves alone -/

/-- `t` is `s` after `n` interleaving points and the calls `cs`; but for the encoder slots and `SEQ` nothing else has
changed. -/
def OnlyEncs (n : Nat) (s t : State) (cs : List Call) : Prop :=
  ∃ q, t = { gaps n s with seq := q, encs := t.encs, trace := s.trace ++ cs }

theorem OnlyEncs.trans {m n : Nat} {s t u : State} {cs ds : List Call} (h : OnlyEncs m s t cs)
    (h' : OnlyEncs n t u ds) : OnlyEncs (m + n) s u (cs ++ ds) := by
  obtain ⟨q, ht⟩ := h
  obtain ⟨q', hu⟩ := h'
  have hagenda := gaps_agenda_congr n (s := t) (t := gaps m s) (by rw [ht])
  refine ⟨q', hu.trans ?_⟩
  rw [gaps_eq n t, hagenda, gaps_add, gaps_eq n (gaps m s), ht]
  simp only [List.append_assoc]

theorem onlyEncs_noChange (s : State) : OnlyEncs 1 s (microStep noChange (gap s)) [] := by
  refine ⟨(microStep noChange (gap s)).seq, ?_⟩
  apply State.ext <;> simp [microStep, noChange, gaps]

theorem onlyEncs_encInitSteps (j : Nat) (s : State) : OnlyEncs 4 s (runSteps (encInitSteps j) s) (encInitTrace j) := by
  refine ⟨(runSteps (encInitSteps j) s).seq, ?_⟩
  apply State.ext <;>
    simp [runSteps, encInitSteps, encInitTrace, microStep, gaps, clearOverflowFlag, enableBaseInterrupt, resetCounter,
      clearOvf, startEncoderMode]

theorem onlyEncs_encInitLoop (n : Nat) (s : State) :
    OnlyEncs (4 * n) s (runSteps (encInitLoop n) s) (encInitLoopTrace n) := by
  induction n generalizing s with
  | zero => exact ⟨s.seq, by simp [encInitLoop, encInitLoopTrace, runSteps, gaps]⟩
  | succ n ih =>
    rw [encInitLoop_succ, encInitLoopTrace_succ, runSteps_append, Nat.mul_succ, Nat.add_comm]
    exact (onlyEncs_encInitSteps (n + 1) s).trans (ih _)

/-- The response after such a run (R23). -/
theorem OnlyEncs.respond {n : Nat} {s t : State} {cs : List Call} (h : OnlyEncs n s t cs) (st : Status) (d : Word) :
    runSteps [respond st d] t =
      { answered (n + 1) s ⟨st, d⟩ cs with encs := (runSteps [respond st d] t).encs } := by
  obtain ⟨q, ht⟩ := h
  have hagenda := gaps_agenda_congr 1 (s := t) (t := gaps n s) (by rw [ht])
  rw [runSteps_respond, answered, answered, gaps_add, gaps_eq 1 t, hagenda, gaps_eq 1 (gaps n s), ht]
  simp only [gaps_responses, List.append_nil]

/-! ### Enabled and running, whatever the environment does -/

/-- What was enabled is still enabled, and what ran still runs (R77, R79). -/
def KeepsStarted (e e' : EncSlot) : Prop := (e.uie = true → e'.uie = true) ∧ (e.encRun = true → e'.encRun = true)

theorem keepsStarted_refl (e : EncSlot) : KeepsStarted e e := ⟨id, id⟩

theorem keepsStarted_onEnc {g : EncSlot → EncSlot} (hg : ∀ e, KeepsStarted e (g e)) (j : Nat) (s : State) (k : Nat) :
    KeepsStarted (s.enc k) ((onEnc j g s).enc k) := by
  rw [enc_onEnc]
  split
  · exact hg _
  · exact keepsStarted_refl _

/-- No micro-step of an Encoder command disables a channel or stops it. -/
theorem encOp_keepsStarted {c : Config} {f : MicroStep} (h : EncOp c f) (s : State) (k : Nat) :
    KeepsStarted (s.enc k) ((f s).enc k) := by
  cases h with
  | noChange | respond | respondVal | readCounter | readPosition => exact keepsStarted_refl _
  | clearOverflowFlag j _ => exact keepsStarted_onEnc (g := fun e => { e with uif := false }) (fun _ => ⟨id, id⟩) j s k
  | enableBaseInterrupt j _ =>
    exact keepsStarted_onEnc (g := fun e => { e with uie := true }) (fun _ => ⟨fun _ => rfl, id⟩) j s k
  | zero j _ =>
    obtain ⟨huie, hrun⟩ := keepsStarted_onEnc (g := fun e => { e with cnt := 0 }) (fun _ => ⟨id, id⟩) j s k
    obtain ⟨huie', hrun'⟩ := keepsStarted_onEnc (g := fun e => { e with ovf := 0 }) (fun _ => ⟨id, id⟩) j
      (resetCounter j s) k
    exact ⟨fun h => huie' (huie h), fun h => hrun' (hrun h)⟩
  | startEncoderMode j _ =>
    exact keepsStarted_onEnc (g := fun e => { e with encRun := true }) (fun _ => ⟨id, fun _ => rfl⟩) j s k

/-- A bit of slot `k` that one micro-step of a run sets, and that neither the environment nor another micro-step
clears, is set at the end. -/
theorem runSteps_sets {flag : EncSlot → Bool} {k : Nat} {fs : List MicroStep} {f : MicroStep}
    (henv : ∀ c g, EnvFn c k g → ∀ e, flag (g e) = flag e)
    (hkeep : ∀ f ∈ fs, ∀ s, flag (s.enc k) = true → flag ((f s).enc k) = true) (hf : f ∈ fs)
    (hset : ∀ s, flag ((f s).enc k) = true) (s : State) : flag ((runSteps fs s).enc k) = true := by
  have enc_microStep : ∀ g t, (microStep g t).enc k = (g t).enc k := fun g t => by simp [State.enc, microStep]
  obtain ⟨pre, post, rfl⟩ := List.append_of_mem hf
  rw [runSteps_append, runSteps]
  refine runSteps_inv (P := fun t => flag (t.enc k) = true) (fun t h => ?_) (fun g hg t h => ?_) ?_
  · obtain ⟨g, hg, e⟩ := gaps_envFn 1 t k
    exact (congrArg flag e).trans ((henv _ _ hg _).trans h)
  · rw [enc_microStep]
    exact hkeep g (by simp [hg]) t h
  · rw [enc_microStep]
    exact hset _

/-- The micro-steps for a configured channel are among those of `EINIT`. -/
theorem mem_einitSteps {c : Config} (h : encCountOk c = true) {j : Nat} (h1 : 1 ≤ j) (hj : j ≤ c.encCount)
    {f : MicroStep} (hf : f ∈ encInitSteps j) : f ∈ einitSteps c := by
  obtain ⟨k, rfl⟩ : ∃ k, j = k + 1 := ⟨j - 1, by omega⟩
  rw [einitSteps_of_ok h, encInitLoop]
  exact List.mem_cons_of_mem _ <| List.mem_append_left _ <| List.mem_flatMap.mpr ⟨k, by simpa using hj, hf⟩

theorem runSteps_einitSteps_started {c : Config} (h : encCountOk c = true) {j : Nat} (h1 : 1 ≤ j)
    (hj : j ≤ c.encCount) (s : State) :
    ((runSteps (einitSteps c) s).enc j).uie = true ∧ ((runSteps (einitSteps c) s).enc j).encRun = true := by
  have hslot : j = j ∧ 1 ≤ j ∧ j ≤ 4 := ⟨rfl, h1, hj.trans (encCount_le_four h)⟩
  have hkeep := fun f hf t => encOp_keepsStarted (encOp_einitSteps c f hf) t j
  constructor
  · refine runSteps_sets (fun _ _ hg => hg.uie) (fun f hf t => (hkeep f hf t).1)
      (mem_einitSteps h h1 hj (f := enableBaseInterrupt j) (by simp [encInitSteps])) (fun t => ?_) s
    exact congrArg EncSlot.uie ((enc_onEnc j j _ t).trans (if_pos hslot))
  · refine runSteps_sets (fun _ _ hg => hg.encRun) (fun f hf t => (hkeep f hf t).2)
      (mem_einitSteps h h1 hj (f := startEncoderMode j) (by simp [encInitSteps])) (fun t => ?_) s
    exact congrArg EncSlot.encRun ((enc_onEnc j j _ t).trans (if_pos hslot))

/-- A channel past the configured ones is left to the environment. -/
theorem runSteps_einitSteps_outside {s : State} {j : Nat} (hj : s.cfg.encCount < j) :
    (runSteps (einitSteps s.cfg) s).enc j = (gaps (einitSteps s.cfg).length s).enc j := by
  have hout : encOk s.cfg j = false := by simp [encOk, hj]
  refine runSteps_slot j (fun f hf t => ?_) rfl rfl rfl
  have hop := encOp_einitSteps s.cfg f hf
  obtain ⟨hcfg, -, -, hagenda⟩ := encOp_keeps hop t
  exact ⟨hcfg, hagenda, (op_enc (.inr (.inl hop)) t j).1 hout⟩

/-- The test, the loop and the response, one after the other (R161). -/
theorem runSteps_einitSteps_frame {s : State} (h : encCountOk s.cfg = true) :
    runSteps (einitSteps s.cfg) s =
      { answered (2 + 4 * s.cfg.encCount) s ⟨.ok, 0⟩ (encInitLoopTrace s.cfg.encCount) with
        encs := (runSteps (einitSteps s.cfg) s).encs } := by
  have hrun := ((onlyEncs_noChange s).trans (onlyEncs_encInitLoop s.cfg.encCount _)).respond .ok 0
  have hsteps : runSteps (einitSteps s.cfg) s = runSteps [respond .ok 0]
      (runSteps (encInitLoop s.cfg.encCount) (microStep noChange (gap s))) := by
    rw [einitSteps_of_ok h, runSteps, runSteps_append]
  rw [hsteps, show 2 + 4 * s.cfg.encCount = 1 + 4 * s.cfg.encCount + 1 by omega]
  exact hrun

/-- Settles O29: the micro-steps of a configured channel set its two bits, and no other channel's are written. -/
theorem einitStartsEveryConfiguredChannel : Obligations.EinitStartsEveryConfiguredChannel := by
  intro s
  refine ⟨rfl, fun h => ?refused, fun h => ⟨_, exec_command rfl s, ?started, ?outside, ?frame⟩⟩
  case refused =>
    rw [exec_command rfl, instrSteps, einitSteps, h]
    exact congrArg _ (runSteps_respond ..)
  case started => exact fun j h1 hj => runSteps_einitSteps_started h h1 hj s
  case outside =>
    intro j hj
    rw [← length_einitSteps_of_ok h]
    exact runSteps_einitSteps_outside hj
  case frame => exact runSteps_einitSteps_frame h

/-! ### With the environment at rest -/

/-- A channel after its micro-steps of `EINIT`, nothing else having moved it (R76 to R79). -/
def EncSlot.initialised (e : EncSlot) : EncSlot :=
  { e with ovf := 0, cnt := 0, uif := false, uie := true, encRun := true }

/-- `f` does `g` to slot `j` of the encoders, writes no other slot, and leaves the agenda. -/
def WritesSlot (j : Nat) (f : MicroStep) (g : EncSlot → EncSlot) : Prop :=
  ∀ s, (f s).agenda = s.agenda ∧ (f s).encs = slotMap s.encs g j

theorem quiet_gap {s : State} (h : quiet s) : quiet (gap s) := gapRest_quiet h

theorem encs_gap_of_quiet {s : State} (h : quiet s) : (gap s).encs = s.encs := gapEncs_quiet h _

/-- Writes of one slot made one after the other, the environment making no move among them. -/
theorem runSteps_writesSlot {j : Nat} {fs : List MicroStep} {gs : List (EncSlot → EncSlot)}
    (hw : List.Forall₂ (WritesSlot j) fs gs) {s : State} (h : quiet s) :
    quiet (runSteps fs s) ∧ (runSteps fs s).encs = slotMap s.encs (fun e => gs.foldl (fun e g => g e) e) j := by
  induction hw generalizing s with
  | nil => exact ⟨h, (slotMap_id _ _ (fun _ => rfl) _).symm⟩
  | @cons f g _ _ hf _ ih =>
    obtain ⟨hagenda, hencs⟩ := hf (gap s)
    have hquiet : quiet (microStep f (gap s)) := by
      rw [quiet, microStep_agenda, hagenda]
      exact quiet_gap h
    obtain ⟨hq, he⟩ := ih hquiet
    refine ⟨hq, he.trans ?_⟩
    rw [microStep_encs, hencs, encs_gap_of_quiet h, slotMap_slotMap]
    rfl

/-- A micro-step that writes no slot, as index 0 names none. -/
theorem runSteps_writesNone {f : MicroStep} (hf : ∀ s, (f s).agenda = s.agenda ∧ (f s).encs = s.encs) {s : State}
    (h : quiet s) : quiet (runSteps [f] s) ∧ (runSteps [f] s).encs = s.encs :=
  runSteps_writesSlot (j := 0) (gs := [id]) (.cons hf .nil) h

/-- Step 3 zeroes both halves of the position (R87, R93). -/
theorem writesSlot_zero (j : Nat) :
    WritesSlot j (fun s => clearOvf j (resetCounter j s)) fun e => { e with ovf := 0, cnt := 0 } :=
  fun s => ⟨rfl, slotMap_slotMap s.encs (fun e => { e with cnt := 0 }) (fun e => { e with ovf := 0 }) j⟩

/-- What the four micro-steps for a channel do to its slot (R161 steps 1 to 4). -/
def encInitWrites : List (EncSlot → EncSlot) :=
  [fun e => { e with uif := false }, fun e => { e with uie := true }, fun e => { e with ovf := 0, cnt := 0 },
   fun e => { e with encRun := true }]

theorem writesSlot_encInitSteps (j : Nat) : List.Forall₂ (WritesSlot j) (encInitSteps j) encInitWrites :=
  .cons (fun _ => ⟨rfl, rfl⟩) <| .cons (fun _ => ⟨rfl, rfl⟩) <| .cons (writesSlot_zero j) <|
    .cons (fun _ => ⟨rfl, rfl⟩) .nil

theorem runSteps_encInitSteps_quiet (j : Nat) {s : State} (h : quiet s) :
    quiet (runSteps (encInitSteps j) s) ∧
      (runSteps (encInitSteps j) s).encs = slotMap s.encs EncSlot.initialised j :=
  runSteps_writesSlot (writesSlot_encInitSteps j) h

/-- The channels done are initialised, the others as they were. -/
theorem runSteps_encInitLoop_quiet {n : Nat} (hn : n ≤ 4) {s : State} (h : quiet s) :
    quiet (runSteps (encInitLoop n) s) ∧
      ∀ k, (runSteps (encInitLoop n) s).enc k = if 1 ≤ k ∧ k ≤ n then (s.enc k).initialised else s.enc k := by
  induction n generalizing s with
  | zero =>
    refine ⟨h, fun k => ?_⟩
    rw [if_neg (by omega)]
    rfl
  | succ n ih =>
    obtain ⟨hquiet, hencs⟩ := runSteps_encInitSteps_quiet (n + 1) h
    obtain ⟨hquiet', hloop⟩ := ih (by omega) hquiet
    have hslot : ∀ k, (runSteps (encInitSteps (n + 1)) s).enc k =
        if k = n + 1 then (s.enc k).initialised else s.enc k := fun k => by
      simp only [State.enc, hencs, slotAt_slotMap, Nat.le_add_left, hn, and_true]
    rw [encInitLoop_succ, runSteps_append]
    refine ⟨hquiet', fun k => ?_⟩
    rw [hloop, hslot]
    grind

/-- Settles O30: the test and the response write no slot, and the loop initialises the configured ones. -/
theorem einitZeroesConfiguredChannels : Obligations.EinitZeroesConfiguredChannels := by
  intro s hok hq
  refine ⟨_, exec_command rfl s, fun j => ?_⟩
  obtain ⟨hqTest, htest⟩ := runSteps_writesNone (f := noChange) (fun _ => ⟨rfl, rfl⟩) hq
  obtain ⟨hqLoop, hloop⟩ := runSteps_encInitLoop_quiet (encCount_le_four hok) hqTest
  obtain ⟨-, hresp⟩ := runSteps_writesNone (f := respond .ok 0) (fun _ => ⟨rfl, rfl⟩) hqLoop
  have hrun : (runSteps (einitSteps s.cfg) s).encs =
      (runSteps (encInitLoop s.cfg.encCount) (runSteps [noChange] s)).encs := by
    rw [einitSteps_of_ok hok, ← List.singleton_append, runSteps_append, runSteps_append, hresp]
  calc (runSteps (einitSteps s.cfg) s).enc j
      = (runSteps (encInitLoop s.cfg.encCount) (runSteps [noChange] s)).enc j := by rw [State.enc, hrun]; rfl
    _ = _ := by rw [hloop, State.enc, htest]; rfl

/-! ### The paired reset -/

theorem position_zero {c : Config} {e : EncSlot} (hovf : e.ovf = 0) (hcnt : e.cnt = 0) : position c e = 0 := by
  simp [position, hovf, hcnt]

/-- Step 3 for channel `j` in the numbering of log 8. -/
theorem stepNumber_einitSteps_zero {c : Config} (h : encCountOk c = true) {j : Nat} (h1 : 1 ≤ j)
    (hj : j ≤ c.encCount) :
    stepNumber (einitSteps c) (4 * (c.encCount - j) + 4) = some fun s => clearOvf j (resetCounter j s) := by
  rw [einitSteps_of_ok h, stepNumber, List.getElem?_cons_succ,
    List.getElem?_append_left (by rw [length_encInitLoop]; omega), encInitLoop_getElem? h1 hj (by omega)]
  rfl

/-- Settles O31: the micro-step `SEQ` names is step 3 for the channel, and it writes both halves of the position. -/
theorem einitZeroesThePositionInOneStep : Obligations.EinitZeroesThePositionInOneStep := by
  intro s w j hw hok h1 hj hs ha
  have hsteps : wordSteps s.cfg w = einitSteps s.cfg := wordSteps_of_ok hw
  have hf := stepNumber_einitSteps_zero hok h1 hj
  rw [← hsteps] at hf
  have hslot : ∀ k, (microStep (fun s => clearOvf j (resetCounter j s)) s).enc k =
      if k = j then { s.enc j with ovf := 0, cnt := 0 } else s.enc k := by
    intro k
    rw [State.enc, microStep_encs, (writesSlot_zero j s).2,
      slotAt_slotMap_of_range h1 (hj.trans (encCount_le_four hok))]
    rfl
  refine ⟨_, (step_busy (by simp [hs]) (.inl ha)).trans (mainMove_of_busy hs hf), ?_, hslot, ?_⟩
  · rw [hslot, if_pos rfl]
    exact position_zero rfl rfl
  · exact microStep_seq_of_keepsSeq ((keepsSeq_resetCounter j).comp (keepsSeq_clearOvf j)) hs

end Sys2Proof.Machine
end


section
/-! PROOFS. `CGETCUR` (42_current.md R181 to R184): channel by channel, with what each draws, writes and calls. -/

namespace Sys2Proof.Machine

/-! ### Codes and currents (R83, R182) -/

/-- The product of two 16-bit numbers fits a word. -/
theorem toNat_scale (c : Config) (raw : Half) : (scale c raw).toNat = raw.toNat * c.curGain.toNat := by
  rw [scale, BitVec.toNat_ofNat, Nat.mod_eq_of_lt]
  calc raw.toNat * c.curGain.toNat < 2 ^ 16 * 2 ^ 16 := Nat.mul_lt_mul'' raw.isLt c.curGain.isLt
    _ = 2 ^ 32 := rfl

theorem toNat_adcCode_lt (c : Config) (raw : Half) : (adcCode c raw).toNat < 2 ^ c.adcBits := by
  rw [adcCode, BitVec.toNat_ofNat]
  exact (Nat.mod_le _ _).trans_lt (Nat.mod_lt _ (Nat.two_pow_pos _))

/-- Settles O46: the product never wraps, and the cut of a code is a remainder. -/
theorem scaleIsExact : Obligations.ScaleIsExact :=
  fun c raw => ⟨toNat_scale c raw, fun _ => toNat_adcCode_lt c raw⟩

/-! ### Draws taken -/

/-- A feed after `n` draws (R24). -/
def Feed.after {α : Type} (f : Feed α) (n : Nat) : Feed α := ⟨f.given.drop n, f.taken + n⟩

theorem Feed.after_zero {α : Type} (f : Feed α) : f.after 0 = f := rfl

theorem Feed.after_after {α : Type} (f : Feed α) (m n : Nat) : (f.after m).after n = f.after (m + n) := by
  simp [Feed.after, Nat.add_assoc]

theorem draw_snd_eq_after {α : Type} (free : Nat → α) (f : Feed α) : (draw free f).2 = f.after 1 := by
  rw [draw_snd, Feed.after, List.drop_one]

theorem feedNth_after {α : Type} (free : Nat → α) (f : Feed α) (n k : Nat) :
    feedNth free (f.after n) k = feedNth free f (n + k) := by
  simp [feedNth, Feed.after, Nat.add_assoc]

theorem codesBefore_succ (s : State) (n : Nat) :
    codesBefore s (n + 1) = codesBefore s n + if pollAnswer s n = true then 1 else 0 := by
  simp [codesBefore, List.range_succ]

/-! ### One channel -/

/-- The micro-steps for channel `k + 1` if its conversion completes: one code is drawn and its element written
(R181 steps 3a, 3b). -/
theorem runAlone_sampleSteps_of_poll {t : State} (h : pollAnswer t 0 = true) (k : Nat) :
    ∃ q, runAlone (sampleSteps (k + 1)) t =
      { t with
        seq := q
        locals := { t.locals with ok := true, raw := codeAnswer t 0 }
        curbuf := (bufWrite k (scale t.cfg (codeAnswer t 0)) t).curbuf
        polls := t.polls.after 1
        raws := t.raws.after 1
        trace := t.trace ++ [.startConversion, .pollForCompletion true, .readValue (codeAnswer t 0),
          .bufWrite k (scale t.cfg (codeAnswer t 0))] } := by
  have hpoll : feedNth Config.freePoll t.polls 0 = true := h
  have hcode : codeAnswer t 0 = adcCode t.cfg (feedNth Config.freeRaw t.raws 0) := rfl
  refine ⟨(runAlone (sampleSteps (k + 1)) t).seq, ?_⟩
  apply State.ext <;>
    simp [sampleSteps, microStep, startConversion, poll, readValueIfOk, bufWriteIfOk, bufWrite, failIfNotOk, hpoll,
      hcode, draw_snd_eq_after]

/-- The micro-steps for a channel whose conversion times out: no code is drawn, no element written, `FAIL` is set
(R181 step 3c, log 9). -/
theorem runAlone_sampleSteps_of_not_poll {t : State} (h : pollAnswer t 0 = false) (k : Nat) :
    ∃ q, runAlone (sampleSteps k) t =
      { t with
        seq := q
        locals := { t.locals with ok := false, fail := true }
        polls := t.polls.after 1
        trace := t.trace ++ [.startConversion, .pollForCompletion false] } := by
  have hpoll : feedNth Config.freePoll t.polls 0 = false := h
  refine ⟨(runAlone (sampleSteps k) t).seq, ?_⟩
  apply State.ext <;>
    simp [sampleSteps, microStep, startConversion, poll, readValueIfOk, bufWriteIfOk, failIfNotOk, hpoll,
      draw_snd_eq_after]

/-! ### The loop over the channels -/

/-- `t` is `s` after the channels `1..n` of a pass that the environment does not interrupt. -/
structure Sampled (s : State) (n : Nat) (t : State) : Prop where
  fail : t.locals.fail = decide (∃ k < n, pollAnswer s k = false)
  buffer : ∀ e, t.bufferAt e = if e < n ∧ pollAnswer s e = true then scale s.cfg (codeAnswer s e) else s.bufferAt e
  frame : t = { s with
    seq := t.seq
    locals := t.locals
    curbuf := t.curbuf
    polls := s.polls.after n
    raws := s.raws.after (codesBefore s n)
    trace := s.trace ++ (List.range n).flatMap (sampleTrace s) }

/-- The next poll is the next channel's. -/
theorem Sampled.pollAnswer_eq {s t : State} {n : Nat} (h : Sampled s n t) : pollAnswer t 0 = pollAnswer s n := by
  rw [pollAnswer, h.frame]
  exact feedNth_after ..

/-- The next code is the next completing channel's. -/
theorem Sampled.codeAnswer_eq {s t : State} {n : Nat} (h : Sampled s n t) : codeAnswer t 0 = codeAnswer s n := by
  rw [codeAnswer, h.frame]
  exact congrArg (adcCode s.cfg) (feedNth_after ..)

/-- One more channel, one more round of the loop (R181). -/
theorem Sampled.succ {s t : State} {n : Nat} (h : Sampled s n t) (hn : n < 4) :
    Sampled s (n + 1) (runAlone (sampleSteps (n + 1)) t) := by
  cases hp : pollAnswer s n with
  | true =>
    obtain ⟨q, e⟩ := runAlone_sampleSteps_of_poll (h.pollAnswer_eq.trans hp) n
    have hcfg : t.cfg = s.cfg := by rw [h.frame]
    rw [e, h.codeAnswer_eq, hcfg]
    refine ⟨?fail, fun x => ?buffer, ?frame⟩
    case fail =>
      simp only [h.fail, Nat.exists_lt_succ_right, hp, Bool.true_eq_false, or_false]
    case buffer =>
      refine (bufferAt_bufWrite hn _ t x).trans ?_
      rcases eq_or_ne x n with rfl | hx
      · simp [hp]
      · have hlt : x < n + 1 ↔ x < n := by omega
        simp only [if_neg hx, h.buffer, hlt]
    case frame =>
      rw [h.frame]
      simp [Feed.after_after, codesBefore_succ, sampleTrace, List.range_succ, hp]
  | false =>
    obtain ⟨q, e⟩ := runAlone_sampleSteps_of_not_poll (h.pollAnswer_eq.trans hp) (n + 1)
    rw [e]
    refine ⟨?fail, fun x => ?buffer, ?frame⟩
    case fail =>
      simp only [Nat.exists_lt_succ_right, hp, or_true, decide_true]
    case buffer =>
      refine (h.buffer x).trans ?_
      rcases eq_or_ne x n with rfl | hx
      · simp [hp]
      · have hlt : x < n + 1 ↔ x < n := by omega
        simp only [hlt]
    case frame =>
      rw [h.frame]
      simp [Feed.after_after, codesBefore_succ, sampleTrace, List.range_succ, hp]

/-- The micro-steps of `CGETCUR` before its loop, when both tests pass (R181 P1 to P3). -/
def passStart : List MicroStep := [noChange, noChange, clearFail]

theorem sampled_passStart (s : State) : Sampled s 0 (runAlone passStart s) := by
  refine ⟨?fail, fun e => ?buffer, ?frame⟩
  case fail => simp [passStart, microStep, clearFail]
  case buffer => simp [passStart, microStep, noChange, clearFail, State.bufferAt]
  case frame =>
    apply State.ext <;> simp [passStart, microStep, noChange, clearFail, Feed.after_zero, codesBefore]

/-- The micro-steps of `CGETCUR` for the channels `1..n`. -/
def sampleLoop (n : Nat) : List MicroStep := (List.range n).flatMap fun k => sampleSteps (k + 1)

theorem sampleLoop_succ (n : Nat) : sampleLoop (n + 1) = sampleLoop n ++ sampleSteps (n + 1) := by
  simp [sampleLoop, List.range_succ]

theorem length_sampleLoop (n : Nat) : (sampleLoop n).length = 5 * n := by
  rw [sampleLoop, length_flatMap_const (fun k => length_sampleSteps (k + 1)), List.length_range]

theorem sampled_sampleLoop (s : State) {n : Nat} (hn : n ≤ 4) :
    Sampled s n (runAlone (sampleLoop n) (runAlone passStart s)) := by
  induction n with
  | zero => exact sampled_passStart s
  | succ n ih =>
    rw [sampleLoop_succ, runAlone_append]
    exact (ih (by omega)).succ hn

/-! ### The command -/

theorem channelCount_le_four {c : Config} (h : c.curFull = true ∨ motorCountOk c = true) : channelCount c ≤ 4 := by
  unfold channelCount
  split
  · exact Nat.le_refl 4
  · rename_i hfull
    exact motorCount_le_four (h.resolve_left hfull)

theorem cgetcurSteps_of_ok {c : Config} (hen : c.curEn = true) (h : c.curFull = true ∨ motorCountOk c = true) :
    cgetcurSteps c = passStart ++ sampleLoop (channelCount c) ++ [respondPass] := by
  have htest : (!c.curFull && !motorCountOk c) = false := by
    rcases h with h | h <;> simp [h]
  rw [cgetcurSteps, if_pos hen, htest]
  rfl

theorem length_cgetcurSteps_of_ok {c : Config} (hen : c.curEn = true)
    (h : c.curFull = true ∨ motorCountOk c = true) : (cgetcurSteps c).length = 4 + 5 * channelCount c := by
  rw [cgetcurSteps_of_ok hen h, List.length_append, List.length_append, length_sampleLoop, passStart]
  simp only [List.length_cons, List.length_nil]
  omega

/-- The counters move at the interleaving points and nowhere else (R91). -/
theorem runSteps_cgetcurSteps (s : State) :
    runSteps (cgetcurSteps s.cfg) s =
      withEnv (runAlone (cgetcurSteps s.cfg) s) (gaps (cgetcurSteps s.cfg).length s).encs
        (gaps (cgetcurSteps s.cfg).length s).agenda :=
  runSteps_envBlind (fun f hf => curOp_blind (curOp_cgetcurSteps s.cfg f hf))
    (fun f hf t => (curOp_keeps (curOp_cgetcurSteps s.cfg f hf) t).1) s

/-- Step E of the pass (R181). -/
theorem runAlone_respondPass (t : State) :
    runAlone [respondPass] t = respond (passStatus t.locals.fail) 0 t :=
  advance_of_idle (respond_seq ..)

theorem passStatus_decide (p : Prop) [Decidable p] : passStatus (decide p) = if p then .convTimeout else .ok := by
  simp [passStatus]

/-- Settles O45: the environment moves apart from the pass, and the pass is its start, its loop and its response. -/
theorem cgetcurSamplesEveryChannel : Obligations.CgetcurSamplesEveryChannel := by
  intro s
  refine ⟨rfl, fun hen => ?disabled, fun hen hfull hcount => ?badCount, fun hen hok => ?ok⟩
  case disabled =>
    rw [exec_command rfl, instrSteps, cgetcurSteps, hen]
    exact congrArg _ (runSteps_respond ..)
  case badCount =>
    rw [exec_command rfl, instrSteps, cgetcurSteps, hen, hfull, hcount]
    exact congrArg _ (runSteps_noChange_respond ..)
  case ok =>
    have hloop := sampled_sampleLoop s (channelCount_le_four hok)
    refine ⟨_, channelCount s.cfg, rfl, exec_command rfl s, ?_⟩
    rw [instrSteps, runSteps_cgetcurSteps, length_cgetcurSteps_of_ok hen hok, cgetcurSteps_of_ok hen hok,
      runAlone_append, runAlone_append, runAlone_respondPass, hloop.fail, passStatus_decide]
    refine ⟨hloop.buffer, ?_⟩
    rw [hloop.frame]
    apply State.ext <;> simp [withEnv, answered, Feed.after]

end Sys2Proof.Machine
end


section
/-! PROOFS. Events against each other and the moves of the reference environment (60_exceptions.md R203 to R209). -/

namespace Sys2Proof.Machine

/-! ### Two events (R208, R209) -/

/-- An event adds a fixed amount to the overflow counter of its channel (R165, R166). -/
theorem exec_event {i : Instr} (h : i.isEvent = true) :
    ∃ (j : Nat) (x : Word), ∀ s,
      exec i s = .next { s with encs := slotMap s.encs (accumulate s.cfg j (· + x)) j } := by
  cases i with
  | evtOvf j => exact ⟨j, 1, fun _ => rfl⟩
  | evtUdf j =>
    refine ⟨j, -1, fun s => ?_⟩
    simp only [exec, execEvtUdf, underflowEvent, countDown, sub_eq_add_neg]
  | _ => cases h

theorem accumulate_add_comm (c : Config) (j : Nat) (x y : Word) (e : EncSlot) :
    accumulate c j (· + y) (accumulate c j (· + x) e) = accumulate c j (· + x) (accumulate c j (· + y) e) := by
  cases h : encOk c j with
  | false => simp only [accumulate_of_not_ok h]
  | true => simp only [accumulate_of_ok h, add_right_comm]

/-- Events on one channel commute because additions do, events on two because they write different slots. -/
theorem slotMap_accumulate_comm (c : Config) (j k : Nat) (x y : Word) (es : Vector EncSlot 4) :
    slotMap (slotMap es (accumulate c j (· + x)) j) (accumulate c k (· + y)) k =
      slotMap (slotMap es (accumulate c k (· + y)) k) (accumulate c j (· + x)) j := by
  by_cases hjk : j = k
  · subst hjk
    simp only [slotMap_slotMap, accumulate_add_comm c j x y]
  · exact slotMap_comm _ _ _ hjk

/-- Settles O38: the two events' steps of the accumulators commute. -/
theorem eventsCommute : Obligations.EventsCommute := by
  intro s i k hi hk
  obtain ⟨ji, x, hxi⟩ := exec_event hi
  obtain ⟨jk, y, hyk⟩ := exec_event hk
  refine ⟨_, by simp only [runInstrs, hxi, hyk]; rfl, ?_⟩
  simp only [runInstrs, hxi, hyk, slotMap_accumulate_comm s.cfg jk ji y x]

/-! ### A count step (R203, R205) -/

/-- With `ENC_RUN` clear, or a wrap that would fall on a pending one, the guarded step is not made. -/
theorem countGuarded_of_blocked {c : Config} {d : WrapDir} {e : EncSlot}
    (h : e.encRun = false ∨ wraps c d e = true ∧ e.uif = true) : countGuarded c d e = e := by
  rcases h with hrun | ⟨hwrap, huif⟩
  · simp [countGuarded, hrun]
  · simp [countGuarded, hwrap, huif]

theorem countValue_up {c : Config} {cnt : Half} (hcnt : cnt.toNat < c.modulus) (hc : c.modulus ≤ 65536) :
    countValue c .up cnt = if cnt.toNat + 1 = c.modulus then 0 else cnt + 1 := by
  apply BitVec.eq_of_toNat_eq
  rw [countValue_up_toNat hcnt hc]
  split
  · rfl
  · bv_omega

theorem countValue_down {c : Config} {cnt : Half} (hcnt : cnt.toNat < c.modulus) (hc : c.modulus ≤ 65536) :
    countValue c .down cnt = if cnt.toNat = 0 then BitVec.ofNat 16 (c.modulus - 1) else cnt - 1 := by
  apply BitVec.eq_of_toNat_eq
  rw [countValue_down_toNat hcnt hc]
  split
  · rw [BitVec.toNat_ofNat, Nat.mod_eq_of_lt (by omega)]
  · bv_omega

/-- Settles O40: the guarded count step is blocked, wraps, or moves the count by one. -/
theorem countStepIsByOne : Obligations.CountStepIsByOne := by
  intro s j d rest ha h1 h4 hrange hc
  have hj : slotAt EncSlot.reset (envMove s.cfg (.count j d) s.encs) j = countGuarded s.cfg d (s.enc j) :=
    slotAt_slotMap_eq h1 h4
  refine ⟨_, wraps s.cfg d (s.enc j), step_env ha, by cases d <;> rfl, rfl, fun k hk => slotAt_slotMap_ne hk,
    fun hblocked => hj.trans (countGuarded_of_blocked hblocked), fun hrun hwrap huif => ?wrap,
    fun hrun hwrap => ?move⟩
  case wrap =>
    rw [State.enc, hj, countGuarded_of_running hrun fun _ => huif, countStep_of_wraps hwrap]
    cases d with
    | up => rw [countValue_up (hrange j) hc, if_pos (of_decide_eq_true hwrap)]
    | down => rw [countValue_down (hrange j) hc, if_pos (of_decide_eq_true hwrap)]
  case move =>
    rw [State.enc, hj, countGuarded_of_running hrun fun h => (nomatch hwrap.symm.trans h),
      countStep_of_not_wraps hwrap]
    cases d with
    | up => rw [countValue_up (hrange j) hc, if_neg (of_decide_eq_false hwrap)]
    | down => rw [countValue_down (hrange j) hc, if_neg (of_decide_eq_false hwrap)]

/-! ### A delivery (R204) -/

theorem deliverable_iff (e : EncSlot) : deliverable e = true ↔ e.uif = true ∧ e.uie = true :=
  Bool.and_eq_true_iff

/-- A change that leaves the entry it is made to leaves the array. -/
theorem slotMap_eq_self {α : Type} {d : α} {b : Vector α 4} {f : α → α} {i : Nat}
    (h : f (slotAt d b i) = slotAt d b i) : slotMap b f i = b := by
  refine slots_ext (d := d) fun k _ _ => ?_
  rw [slotAt_slotMap]
  split
  · rename_i hk
    rw [hk.1, h]
  · rfl

/-- A channel with an event pending is one of the four. -/
theorem range_of_deliverable {s : State} {j : Nat} (h : deliverable (s.enc j) = true) : 1 ≤ j ∧ j ≤ 4 := by
  by_contra hout
  rw [State.enc, slotAt_outside (by omega)] at h
  cases h

/-- Delivery on channel `j` is `deliver` on its slot, and no other slot changes. -/
theorem slotAt_slotMap_deliver {s : State} {j : Nat} (h : deliverable (s.enc j) = true) (k : Nat) :
    slotAt EncSlot.reset (slotMap s.encs (deliver s.cfg j) j) k =
      if k = j then deliver s.cfg j (s.enc j) else s.enc k := by
  obtain ⟨h1, h4⟩ := range_of_deliverable h
  exact slotAt_slotMap_of_range h1 h4 k

/-- Settles O41: the step is `deliver` on the channel's slot. -/
theorem deliveryTakesThePendingEvent : Obligations.DeliveryTakesThePendingEvent := by
  intro s j rest ha
  refine ⟨fun hnone => ?_, fun huif huie => ⟨_, step_env ha, rfl, fun k => ?_⟩⟩
  · have hnot : deliverable (s.enc j) = false := Bool.and_eq_false_iff.mpr hnone
    rw [step_env ha, envMove, slotMap_eq_self (d := EncSlot.reset) (deliver_of_not hnot)]
  · have hd : deliverable (s.enc j) = true := (deliverable_iff _).mpr ⟨huif, huie⟩
    refine (slotAt_slotMap_deliver hd k).trans ?_
    by_cases hk : k = j
    · rw [if_pos hk, if_pos hk]
      exact deliver_of hd
    · rw [if_neg hk, if_neg hk]

/-! ### Every pending event is delivered (R204) -/

/-- What a delivery leaves is no longer pending. -/
theorem deliverable_deliver (c : Config) (j : Nat) (e : EncSlot) : deliverable (deliver c j e) = false := by
  cases h : deliverable e with
  | false => rw [deliver_of_not h, h]
  | true =>
    rw [deliver_of h]
    rfl

/-- The channels with an event pending and enabled. -/
def pendingChannels (s : State) : Finset Nat := {j ∈ Finset.Icc 1 4 | deliverable (s.enc j) = true}

theorem mem_pendingChannels {s : State} {j : Nat} : j ∈ pendingChannels s ↔ deliverable (s.enc j) = true := by
  rw [pendingChannels, Finset.mem_filter, Finset.mem_Icc, and_iff_right_iff_imp]
  exact range_of_deliverable

theorem card_pendingChannels_le (s : State) : (pendingChannels s).card ≤ 4 :=
  Finset.card_filter_le (Finset.Icc 1 4) _

/-- A delivery takes its channel off the pending ones. -/
theorem pendingChannels_deliver {s : State} {j : Nat} (h : deliverable (s.enc j) = true) :
    pendingChannels { s with encs := slotMap s.encs (deliver s.cfg j) j } = (pendingChannels s).erase j := by
  ext k
  rw [Finset.mem_erase, mem_pendingChannels, mem_pendingChannels, State.enc, slotAt_slotMap_deliver h]
  split
  · rename_i hk
    simp [hk, deliverable_deliver]
  · rename_i hk
    simp [hk]

/-- An idle core with nothing on the agenda delivers one pending event a step until none is left. -/
theorem run_delivers_all {n : Nat} {s : State} (hs : s.seq = .idle) (ha : s.agenda = [])
    (hn : (pendingChannels s).card ≤ n) :
    ∃ t, Sys2Proof.core.run n s = .next t ∧ t = { s with encs := t.encs } ∧
      ∀ j, t.enc j = deliver s.cfg j (s.enc j) := by
  induction n generalizing s with
  | zero =>
    have hnone : pendingChannels s = ∅ := Finset.card_eq_zero.mp (Nat.le_zero.mp hn)
    refine ⟨s, rfl, rfl, fun j => (deliver_of_not ?_).symm⟩
    rw [← Bool.not_eq_true, ← mem_pendingChannels, hnone]
    exact Finset.notMem_empty j
  | succ n ih =>
    have hstep : Sys2Proof.core.run 1 s = .next (settle s) := core_run_one (step_settle hs ha)
    rcases settle_cases s with ⟨hsame, hnone⟩ | ⟨j, -, -, hd, hdeliver⟩
    · have hempty : pendingChannels s = ∅ :=
        Finset.eq_empty_of_forall_notMem fun j => by simp [mem_pendingChannels, hnone]
      obtain ⟨t, ht, hrest⟩ := ih hs ha (by simp [hempty])
      rw [hsame] at hstep
      exact ⟨t, Nat.add_comm n 1 ▸ core_run_add hstep ht, hrest⟩
    · rw [hdeliver] at hstep
      have hcard : ((pendingChannels s).erase j).card ≤ n := by
        rw [Finset.card_erase_of_mem (mem_pendingChannels.mpr hd)]
        omega
      obtain ⟨t, ht, hframe, hslots⟩ := ih (s := { s with encs := slotMap s.encs (deliver s.cfg j) j }) hs ha
        (pendingChannels_deliver hd ▸ hcard)
      refine ⟨t, Nat.add_comm n 1 ▸ core_run_add hstep ht, hframe, fun k => ?_⟩
      rw [hslots, State.enc, slotAt_slotMap_deliver hd]
      split
      · rename_i hk
        rw [hk, deliver_of_not (deliverable_deliver ..)]
      · rfl

/-- Settles O42: at most four channels are pending, and each step delivers one of them. -/
theorem pendingEventsAreDelivered : Obligations.PendingEventsAreDelivered := by
  intro s hs ha
  obtain ⟨t, hrun, hframe, hslots⟩ := run_delivers_all hs ha (card_pendingChannels_le s)
  refine ⟨t, hrun, hframe, fun j => ?_⟩
  rw [hslots]
  split
  · rename_i hpending
    exact deliver_of ((deliverable_iff _).mpr hpending)
  · rename_i hnot
    exact deliver_of_not (Bool.eq_false_iff.mpr (mt (deliverable_iff _).mp hnot))

/-! ### The host between commands (R206) -/

/-- Settles O43: at an idle core the host's move writes the element. -/
theorem hostWritesItsBuffer : Obligations.HostWritesItsBuffer := by
  intro s e v rest hs ha he
  exact ⟨_, step_host hs ha (by simp), rfl, bufferAt_bufWrite he v s⟩

end Sys2Proof.Machine
end


section
/-! PROOFS. The index check of the indexed commands (60_exceptions.md R193). -/

namespace Sys2Proof.Machine

/-- The command `i`, whose index check comes out `ok`, responds `INDEX_OUT_OF_RANGE` and does nothing else if the check
fails, and responds `OK` if it passes (R193). -/
def ChecksIndex (s : State) (i : Instr) (ok : Bool) : Prop :=
  (ok = false → exec i s = .next (answered 1 s ⟨.indexOutOfRange, 0⟩ [])) ∧
    (ok = true → ∃ t r, exec i s = .next t ∧ t.responses = s.responses ++ [r] ∧ r.status = .ok)

/-- The indexed MotorDriver commands, by what each does (R133 to R138). -/
theorem checksIndex_motor (s : State) (x : Nat) (d : Half) :
    ∀ i ∈ [Instr.mstart x d, .msetduty x d, .mstop x d, .moff x, .mon x, .mgetstate x],
      ChecksIndex s i (motorOk s.cfg x) := by
  obtain ⟨-, hstartBad, hstart⟩ := mstartDrivesForward s x d
  obtain ⟨-, hdutyBad, hduty⟩ := msetdutyChangesDutyOnly s x d
  obtain ⟨-, hstopBad, hstop⟩ := mstopRemovesDrive s x d
  obtain ⟨-, hoffBad, hoff⟩ := moffCoasts s x
  obtain ⟨-, honBad, hon⟩ := monFollowsTheDirectionLatch s x
  obtain ⟨-, hgetBad, hget⟩ := mgetstateReturnsThePinLevel s x
  simp only [List.forall_mem_cons]
  refine ⟨⟨hstartBad, fun h => ?_⟩, ⟨hdutyBad, fun h => ?_⟩, ⟨hstopBad, fun h => ?_⟩, ⟨hoffBad, fun h => ?_⟩,
    ⟨honBad, fun h => ?_⟩, ⟨hgetBad, fun h => ?_⟩, nofun⟩
  · obtain ⟨t, ht, -, -, hframe⟩ := hstart h
    exact ⟨t, _, ht, congrArg State.responses hframe, rfl⟩
  · obtain ⟨t, ht, -, -, hframe⟩ := hduty h
    exact ⟨t, _, ht, congrArg State.responses hframe, rfl⟩
  · obtain ⟨t, ht, -, -, hframe⟩ := hstop h
    exact ⟨t, _, ht, congrArg State.responses hframe, rfl⟩
  · obtain ⟨t, ht, -, hframe⟩ := hoff h
    exact ⟨t, _, ht, congrArg State.responses hframe, rfl⟩
  · obtain ⟨t, ht, -, hframe⟩ := hon h
    exact ⟨t, _, ht, congrArg State.responses hframe, rfl⟩
  · obtain ⟨v, -, ht⟩ := hget h
    exact ⟨_, _, ht, rfl, rfl⟩

/-- The two queries of the Encoder component, by what each does (R162, R163). -/
theorem checksIndex_encoder (s : State) (x : Nat) :
    ∀ i ∈ [Instr.egetcnt x, .egetpos x], ChecksIndex s i (encOk s.cfg x) := by
  obtain ⟨-, hcntBad, hcnt⟩ := egetcntReturnsTheRawCount s x
  obtain ⟨-, hposBad, hpos⟩ := egetposReturnsThePosition s x
  simp only [List.forall_mem_cons]
  refine ⟨⟨hcntBad, fun h => ?_⟩, ⟨hposBad, fun h => ?_⟩, nofun⟩
  · obtain ⟨v, -, ht⟩ := hcnt h
    exact ⟨_, _, ht, rfl, rfl⟩
  · obtain ⟨e, -, ht⟩ := hpos h
    exact ⟨_, _, ht, rfl, rfl⟩

/-- Settles O25: each of the eight commands checks its index. -/
theorem outOfRangeIndexIsANoop : Obligations.OutOfRangeIndexIsANoop := by
  intro s x d i
  refine ⟨?bad, ?good⟩
  case bad =>
    rintro (⟨hi, hx⟩ | ⟨hi, hx⟩)
    · exact (checksIndex_motor s x d i hi).1 hx
    · exact (checksIndex_encoder s x i hi).1 hx
  case good =>
    rintro (⟨hi, hx⟩ | ⟨hi, hx⟩)
    · exact (checksIndex_motor s x d i hi).2 hx
    · exact (checksIndex_encoder s x i hi).2 hx

end Sys2Proof.Machine
end


section
/-! PROOFS. The machine never stops (60_exceptions.md R190): progress and preservation under the invariant that `SEQ`
names a micro-step of its command. -/

namespace Sys2Proof.Machine

/-! ### Progress -/

theorem exists_stepNumber {fs : List MicroStep} {k : Nat} (h1 : 1 ≤ k) (hk : k ≤ fs.length) :
    ∃ f, stepNumber fs k = some f := by
  obtain ⟨p, rfl⟩ : ∃ p, k = p + 1 := ⟨k - 1, by omega⟩
  exact ⟨_, List.getElem?_eq_getElem hk⟩

theorem SeqInRange.exists_mainMove {s : State} (h : SeqInRange s) : ∃ t, mainMove s = .next t := by
  cases hs : s.seq with
  | idle => exact ⟨s, by simp only [mainMove, hs]⟩
  | busy w k =>
    obtain ⟨h1, hk⟩ := h w k hs
    obtain ⟨f, hf⟩ := exists_stepNumber h1 hk
    exact ⟨_, mainMove_of_busy hs hf⟩

/-- Whatever stands at the head of the agenda, the core, the environment or the host moves. -/
theorem SeqInRange.exists_step {s : State} (h : SeqInRange s) : ∃ t, step s = .next t := by
  cases ha : s.agenda with
  | nil =>
    by_cases hs : s.seq = .idle
    · exact ⟨_, step_settle hs ha⟩
    · rw [step_busy hs (.inl ha)]
      exact h.exists_mainMove
  | cons a rest =>
    cases a with
    | main =>
      rw [step_main ha]
      exact SeqInRange.exists_mainMove (s := { s with agenda := rest }) h
    | env m => exact ⟨_, step_env ha⟩
    | host m =>
      by_cases hs : s.seq = .idle
      · cases m with
        | issue c => exact ⟨_, step_issue hs ha⟩
        | issueStepped | write => exact ⟨_, step_host hs ha (by simp)⟩
      · rw [step_busy hs (.inr ⟨m, rest, ha⟩)]
        exact h.exists_mainMove

/-! ### Preservation -/

/-- Every word has a first micro-step. -/
theorem seqInRange_accept (c : Word) (s : State) : SeqInRange (accept c s) := by
  rintro w k ⟨⟩
  obtain ⟨fs, f, hshape, -⟩ := wordSteps_shape s.cfg c
  exact ⟨Nat.le_refl 1, by simp [hshape]⟩

/-- The micro-step whose number is the command's length is the one that responds. -/
theorem responds_of_last {c : Config} {w : Word} {f : MicroStep}
    (h : stepNumber (wordSteps c w) (wordSteps c w).length = some f) : Responds f := by
  obtain ⟨fs, last, hshape, -, hlast⟩ := wordSteps_shape c w
  rw [hshape, List.length_append, List.length_singleton, stepNumber_append] at h
  exact Option.some.inj h ▸ hlast

/-- A micro-step that leaves the core busy is not the last, so `SEQ` moves on to one that is there. -/
theorem seqInRange_microStep {s : State} {w : Word} {k : Nat} {f : MicroStep} (hs : s.seq = .busy w k)
    (hf : stepNumber (wordSteps s.cfg w) k = some f) : SeqInRange (microStep f s) := by
  have idle_in_range : Responds f → SeqInRange (microStep f s) := fun hresp w' k' hbusy => by
    rw [(microStep_of_responds hresp s).1] at hbusy
    cases hbusy
  rcases keepsSeq_or_responds hf with hkeep | hresp
  · by_cases hk : k = (wordSteps s.cfg w).length
    · exact idle_in_range (responds_of_last (hk ▸ hf))
    · have hcfg : (microStep f s).cfg = s.cfg :=
        (advance_cfg _).trans (op_cfg (op_of_mem_word (mem_of_stepNumber hf)) s)
      have hrange := stepNumber_range hf
      intro w' k' hbusy
      rw [microStep_seq_of_keepsSeq hkeep hs] at hbusy
      cases hbusy
      rw [hcfg]
      omega
  · exact idle_in_range hresp

/-- Settles O56: progress and preservation. -/
theorem stepNeverStops : Obligations.StepNeverStops := by
  intro s h
  obtain ⟨t, ht⟩ := h.exists_step
  exact ⟨t, ht, step_keeps_of_microSteps (P := SeqInRange) (fun _ _ h => h) (fun s c _ _ => seqInRange_accept c s)
    (fun _ _ h => h) (fun _ _ h => h) (fun _ _ _ _ hs hf _ => seqInRange_microStep hs hf) h ht⟩

end Sys2Proof.Machine
end


section
/-! PROOFS. Every command ends (70_reset_and_hazards.md R255), and the hazard of stopping a coasting slot (R236). -/

namespace Sys2Proof.Machine

/-! ### How long a command is -/

theorem length_minitSteps_le (c : Config) : (minitSteps c).length ≤ 47 := by
  cases hn : motorCountOk c with
  | false => simp [minitSteps, hn, configError]
  | true =>
    cases ha : adcCountMismatch c with
    | true => simp [minitSteps, hn, ha, configError]
    | false =>
      have h4 := motorCount_le_four hn
      rw [minitSteps_of_ok hn ha, List.length_append, List.length_append, length_wakeLoop, testsPassed]
      simp only [List.length_cons, List.length_nil]
      omega

theorem length_einitSteps_le (c : Config) : (einitSteps c).length ≤ 18 := by
  cases hn : encCountOk c with
  | false => simp [einitSteps, hn, configError]
  | true =>
    have h4 := encCount_le_four hn
    rw [length_einitSteps_of_ok hn]
    omega

theorem length_cgetcurSteps_le (c : Config) : (cgetcurSteps c).length ≤ 24 := by
  cases hen : c.curEn with
  | false => simp [cgetcurSteps, hen]
  | true =>
    by_cases h : c.curFull = true ∨ motorCountOk c = true
    · have h4 := channelCount_le_four h
      rw [length_cgetcurSteps_of_ok hen h]
      omega
    · obtain ⟨hfull, hn⟩ := not_or.mp h
      simp [cgetcurSteps, hen, hfull, hn, configError]

/-- The longest command is `MINIT` of four slots: two tests, eleven micro-steps a slot, the response (R131). -/
theorem length_instrSteps_le (c : Config) (i : Instr) : (instrSteps c i).length ≤ 47 := by
  cases i with
  | minit => exact length_minitSteps_le c
  | einit => exact (length_einitSteps_le c).trans (by decide)
  | cgetcur => exact (length_cgetcurSteps_le c).trans (by decide)
  | evtOvf | evtUdf => exact Nat.zero_le _
  | mstart | msetduty | mstop | moff | mon | mgetstate | egetcnt | egetpos =>
    simp only [instrSteps, mstartSteps, msetdutySteps, mstopSteps, brakeSteps, moffSteps, monSteps, mgetstateSteps,
      egetcntSteps, egetposSteps, indexError]
    split <;> simp

theorem length_wordSteps_le (c : Config) (w : Word) : (wordSteps c w).length ≤ 47 := by
  cases hd : decodeCommand w with
  | ok i => exact wordSteps_of_ok hd ▸ length_instrSteps_le c i
  | error e => simp [wordSteps_of_error hd, illegalSteps]

/-! ### What is left to happen -/

/-- The micro-steps the running command still has to make, the one `SEQ` names included. -/
def microStepsLeft (s : State) : Nat :=
  match s.seq with
  | .idle => 0
  | .busy w k => (wordSteps s.cfg w).length + 1 - k

theorem microStepsLeft_of_idle {s : State} (hs : s.seq = .idle) : microStepsLeft s = 0 := by
  simp only [microStepsLeft, hs]

theorem microStepsLeft_of_busy {s : State} {w : Word} {k : Nat} (hs : s.seq = .busy w k) :
    microStepsLeft s = (wordSteps s.cfg w).length + 1 - k := by
  simp only [microStepsLeft, hs]

theorem SeqInRange.microStepsLeft_le {s : State} (h : SeqInRange s) : microStepsLeft s ≤ 47 := by
  cases hs : s.seq with
  | idle => simp [microStepsLeft_of_idle hs]
  | busy w k =>
    have hlen := length_wordSteps_le s.cfg w
    obtain ⟨h1, -⟩ := h w k hs
    rw [microStepsLeft_of_busy hs]
    omega

/-- No micro-step of a word takes a move off the agenda. -/
theorem microStep_agenda_of_mem {c : Config} {w : Word} {f : MicroStep} (h : f ∈ wordSteps c w) (s : State) :
    (microStep f s).agenda = s.agenda := by
  rw [microStep_agenda]
  rcases op_of_mem_word h with h | h | h
  · exact (motorOp_keeps h s).2.2
  · exact (encOp_keeps h s).2.2.2
  · exact (curOp_keeps h s).2.2

/-- The micro-step that `SEQ` names is one less to make. -/
theorem microStepsLeft_microStep_lt {s : State} {w : Word} {k : Nat} {f : MicroStep} (hs : s.seq = .busy w k)
    (hf : stepNumber (wordSteps s.cfg w) k = some f) : microStepsLeft (microStep f s) < microStepsLeft s := by
  have hrange := stepNumber_range hf
  rw [microStepsLeft_of_busy hs]
  rcases keepsSeq_or_responds hf with hkeep | hresp
  · have hcfg : (microStep f s).cfg = s.cfg :=
      (advance_cfg _).trans (op_cfg (op_of_mem_word (mem_of_stepNumber hf)) s)
    rw [microStepsLeft_of_busy (microStep_seq_of_keepsSeq hkeep hs), hcfg]
    omega
  · rw [microStepsLeft_of_idle (microStep_of_responds hresp s).1]
    omega

/-- The micro-steps of the running command and the moves of the agenda that are still to come. -/
def movesLeft (s : State) : Nat := microStepsLeft s + s.agenda.length

/-- The main line's move at a busy core is a micro-step, and the agenda stays. -/
theorem SeqInRange.movesLeft_mainMove_lt {s t : State} (h : SeqInRange s) (hs : s.seq ≠ .idle)
    (ht : mainMove s = .next t) : movesLeft t < movesLeft s := by
  cases hseq : s.seq with
  | idle => exact absurd hseq hs
  | busy w k =>
    obtain ⟨h1, hk⟩ := h w k hseq
    obtain ⟨f, hf⟩ := exists_stepNumber h1 hk
    rw [mainMove_of_busy hseq hf] at ht
    cases ht
    rw [movesLeft, movesLeft, microStep_agenda_of_mem (mem_of_stepNumber hf)]
    exact Nat.add_lt_add_right (microStepsLeft_microStep_lt hseq hf) _

/-- A step of a busy core makes a micro-step of its command, or takes a move off the agenda, or both. -/
theorem SeqInRange.movesLeft_step_lt {s t : State} (h : SeqInRange s) (hs : s.seq ≠ .idle)
    (ht : step s = .next t) : movesLeft t < movesLeft s := by
  cases ha : s.agenda with
  | nil => exact h.movesLeft_mainMove_lt hs (step_busy hs (.inl ha) ▸ ht)
  | cons a rest =>
    have htail : movesLeft { s with agenda := rest } < movesLeft s := by
      simp [movesLeft, microStepsLeft, ha]
    cases a with
    | main =>
      rw [step_main ha] at ht
      exact (movesLeft_mainMove_lt (s := { s with agenda := rest }) h hs ht).trans htail
    | env m =>
      rw [step_env ha] at ht
      cases ht
      exact htail
    | host m => exact h.movesLeft_mainMove_lt hs (step_busy hs (.inr ⟨m, rest, ha⟩) ▸ ht)

/-- A busy core makes steps until it is idle, and each leaves less to happen. -/
theorem SeqInRange.exists_run_idle {s : State} (h : SeqInRange s) :
    ∃ n t, n ≤ movesLeft s ∧ Sys2Proof.core.run n s = .next t ∧ t.seq = .idle := by
  by_cases hs : s.seq = .idle
  · exact ⟨0, s, Nat.zero_le _, rfl, hs⟩
  · obtain ⟨t, ht, hrange⟩ := stepNeverStops s h
    have hless := h.movesLeft_step_lt hs ht
    obtain ⟨n, u, hn, hrun, hidle⟩ := hrange.exists_run_idle
    exact ⟨1 + n, u, by omega, core_run_add (core_run_one ht) hrun, hidle⟩
termination_by movesLeft s

/-- Settles O11: the steps up to idle are at most what is left to happen, and a command has at most 47 micro-steps. -/
theorem everyCommandEnds : Obligations.EveryCommandEnds := by
  intro s h
  obtain ⟨n, t, hn, hrun, hidle⟩ := h.exists_run_idle
  exact ⟨n, t, hn.trans (Nat.add_le_add_right h.microStepsLeft_le _), hrun, hidle⟩

/-! ### Stopping a coasting slot -/

/-- Settles O28: `MSTOP` leaves the OFF pin set, and `MON` clears it with the direction latch at 0. -/
theorem stopOnACoastingSlotDoesNotBrake : Obligations.StopOnACoastingSlotDoesNotBrake := by
  intro s i d hi hsleep hoff
  obtain ⟨-, -, hstop⟩ := mstopRemovesDrive s i d
  obtain ⟨t, ht, -, htslot, htframe⟩ := hstop hi
  have hcfg : t.cfg = s.cfg := by rw [htframe]; exact gaps_cfg ..
  obtain ⟨-, -, hon⟩ := monFollowsTheDirectionLatch t i
  obtain ⟨u, hu, huslot, -⟩ := hon (hcfg ▸ hi)
  have htm := htslot i
  have hum := huslot i
  rw [if_pos rfl] at htm hum
  rw [htm] at hum
  refine ⟨t, u, ht, hu, ?_⟩
  rw [htm, hum]
  simp [bridge, hsleep, hoff]

end Sys2Proof.Machine
end
